-- ==== Sys2Proof/Word.lean ====
section
/-! DEFINITION. The two word types of popcount_engine: the 32-bit word (R6) and the 34-bit command word (R9).
Bit 0 is the least significant bit (R10); `+ - * &&& ||| ~~~ <<< >>>` on `BitVec` are the wrapping unsigned operations of R11. -/

namespace Sys2Proof

/-- A word: "a fixed 32-bit unsigned integer used as the packing unit for bit storage" (R6); also the type of a length (R7). -/
abbrev Word := BitVec 32

/-- A command word, the value of `cmd[33:0]` (R9, R40). -/
abbrev CmdWord := BitVec 34

end Sys2Proof
end

