-- ==== Sys2Proof/Syntax.lean ====
section
/-! DEFINITION. The commands of PCE-1 (R40, R43): one constructor per row of spec/opcode_table.json. -/

namespace Sys2Proof

/-- A command. The argument is the 32-bit `arg` as it stands (R42). -/
inductive Instr where
  /-- BUFLEN n (R53): `n` is a logical length in bits. -/
  | buflen (n : Word)
  /-- START n (R72): `n` is the logical length N in bits. -/
  | start (n : Word)
  /-- PUSH w (R73): `w` is the next buffer word, vector bit `32 * IDX + k` at `w[k]`. -/
  | push (w : Word)
  /-- FINISH (R74): no operand. -/
  | finish
  deriving DecidableEq, Repr

end Sys2Proof
end

