-- ==== Sys2Proof/WellFormed.lean ====
section
/-! DEFINITION. Well-formedness: of the two fields of format C (R41, R45), and of a command. -/

namespace Sys2Proof

/-- The two fields of format C, the only format (R41), before it is known whether the word is a command. -/
structure Fields where
  /-- bits 33:32 -/
  op : BitVec 2
  /-- bits 31:0 -/
  arg : Word
  deriving DecidableEq, Repr

/-- The opcode value of FINISH (R43). -/
def opFinish : BitVec 2 := 3

/-- R45: "the argument field of FINISH is reserved and must be zero"; every other pair of fields is a command (R43, R46). -/
def Fields.wellFormed (f : Fields) : Bool := f.op != opFinish || f.arg == 0

/-- The opcode of a command (R43). -/
def Instr.op : Instr → BitVec 2
  | .buflen _ => 0
  | .start _ => 1
  | .push _ => 2
  | .finish => opFinish

/-- The argument field of a command (R41, R42): FINISH has the reserved zero (R45). -/
def Instr.arg : Instr → Word
  | .buflen n => n
  | .start n => n
  | .push w => w
  | .finish => 0

/-- The fields a command is written with. -/
def Instr.fields (i : Instr) : Fields := { op := i.op, arg := i.arg }

/-- A command is well formed when its fields are. Every operand fits its field by its type (R42), so the one check that
can refuse anything is the reserved field of R45, and no command is ill-formed (`Instr.wellFormed_all` in Laws/Decode.lean). -/
def Instr.wellFormed (i : Instr) : Bool := i.fields.wellFormed

end Sys2Proof
end

