-- ==== Sys2Proof/Decode.lean ====
section
/-! DEFINITION. The decoder of R44, total on 34-bit words, the encoder, and the opcode map of R43 as rows. -/

namespace Sys2Proof

/-- Why a word is no command. -/
inductive DecodeError where
  /-- ILLEGAL (R44, R45): op = 3 with the argument `arg`, which is not 0. The machine raises E_ENC for it (R81). -/
  | finishArgNotZero (arg : Word)
  deriving DecidableEq, Repr

/-- The fields of a command word (R41): `op` = bits 33:32, `arg` = bits 31:0. -/
def fieldsOf (c : CmdWord) : Fields := { op := c.extractLsb' 32 2, arg := c.extractLsb' 0 32 }

/-- The command word of two fields (R41): `cmd = op * 2^32 + arg`, that is, `op` above `arg`. -/
def ofFields (f : Fields) : CmdWord := f.op ++ f.arg

/-- The command that two fields name, or ILLEGAL (R44). -/
def decodeFields (f : Fields) : Except DecodeError Instr :=
  if f.op = 0 then .ok (.buflen f.arg)
  else if f.op = 1 then .ok (.start f.arg)
  else if f.op = 2 then .ok (.push f.arg)
  else if f.arg = 0 then .ok .finish
  else .error (.finishArgNotZero f.arg)

/-- R44: "Decoding is a total function on 34-bit words". -/
def decode (c : CmdWord) : Except DecodeError Instr := decodeFields (fieldsOf c)

/-- R44: "`encode` is the inverse on the four commands". -/
def encode (i : Instr) : CmdWord := ofFields i.fields

/-- A row of the opcode map of R43. -/
structure OpcodeRow where
  /-- the row's `match` column -/
  pattern : CmdWord
  /-- the row's `mask` column -/
  mask : CmdWord
  deriving DecidableEq, Repr

/-- R43: "A command word `c` is the command of a row when `c & mask = match`." -/
def OpcodeRow.covers (r : OpcodeRow) (c : CmdWord) : Bool := c &&& r.mask == r.pattern

/-- The row of a command (R43). -/
def Instr.row : Instr → OpcodeRow
  | .buflen _ => { pattern := 0x000000000, mask := 0x300000000 }
  | .start _ => { pattern := 0x100000000, mask := 0x300000000 }
  | .push _ => { pattern := 0x200000000, mask := 0x300000000 }
  | .finish => { pattern := 0x300000000, mask := 0x3FFFFFFFF }

/-- The opcode map of R43, in the table's order: BUFLEN, START, PUSH, FINISH. -/
def opcodeMap : List OpcodeRow :=
  [(Instr.buflen 0).row, (Instr.start 0).row, (Instr.push 0).row, Instr.finish.row]

/-- The word on the command port whose bits are the low 34 bits of `w` (the port has 34 wires, R23). -/
def cmdOfNat (w : Nat) : CmdWord := BitVec.ofNat 34 w

/-- The command that an opcode-table word of `nbits` bits decodes to. The bits above `nbits` are 0. A number that does
not fit the port's 34 wires is no command word (DESIGN CHOICE, safe; log 12). -/
def decodeTableWord (nbits w : Nat) : Option Instr :=
  let v := w % 2 ^ nbits
  if v < 2 ^ 34 then
    match decode (cmdOfNat v) with
    | .ok i => some i
    | .error _ => none
  else none

end Sys2Proof
end

