-- ==== Sys2Proof/Config.lean ====
section
/-! DEFINITION. What one instance of the engine fixes: the buffer capacity BUF_WORDS (R8), the only open parameter.
W = 32, LEN_W = 32 and CMD_W = 34 are fixed (R6, R7, R9) and stand in the types of Word.lean. And the one free value of
the model, the content of BUF after a reset. -/

namespace Sys2Proof

/-- The parameters of an instance. R25: "The configuration (`BUF_WORDS`) is a parameter of the step function and not state." -/
structure Config where
  /-- BUF_WORDS: the number of 32-bit words in BUF (R8). -/
  bufWords : Nat
  deriving DecidableEq, Repr

/-- The largest capacity, 2^27 words (R8). -/
def Config.maxBufWords : Nat := 134217728

/-- R8: "an integer with `1 <= BUF_WORDS <= 2^27`". -/
abbrev Config.Valid (c : Config) : Prop := 1 ≤ c.bufWords ∧ c.bufWords ≤ Config.maxBufWords

/-- The capacity that `State.reset` is written with. DESIGN CHOICE, unsafe (log 1): R8 leaves BUF_WORDS open; 4 is the
value its test vectors use. No statement of the package rests on it. -/
def Config.testVectors : Config := { bufWords := 4 }

/-- A FREE VALUE: the content of word `i` of BUF after the reset numbered `draw`, until something writes it. R24: "each
word holds an arbitrary 32-bit value after reset"; R97: "a free input" (log 4). -/
opaque Config.resetWord (draw i : Nat) : Word

end Sys2Proof
end

