-- ==== Sys2Proof/Machine/State.lean ====
section
/-! DEFINITION. The state of popcount_engine (R14 to R27), the reasons a step can stop, and the reset state (R96). -/

namespace Sys2Proof.Machine

/-- PHASE (R20): 2 bits, all four values named. Its code is `Phase.code` in Flags.lean. -/
inductive Phase where
  /-- 0: after reset, no operation started -/
  | idle
  /-- 1: an operation is open -/
  | load
  /-- 2: FINISH completed, ACC holds the count -/
  | done
  /-- 3: a command faulted; absorbing until reset -/
  | fault
  deriving DecidableEq, Repr

/-- ECODE (R21, R80): 2 bits, all four values named. Its code is `Ecode.code` in Flags.lean. -/
inductive Ecode where
  /-- 0: no fault -/
  | none
  /-- 1, E_ENC: an ILLEGAL command word (R81) -/
  | enc
  /-- 2, E_SEQ: a command not legal in the phase or at the copy position (R82) -/
  | seq
  /-- 3, E_CAP: a length that needs more than BUF_WORDS words (R83) -/
  | cap
  deriving DecidableEq, Repr

/-- BUF as data: (word index, word) pairs. The unit is the 32-bit word, the only unit the spec addresses (R28, R30, R32;
log 5). The list holds what has been written since reset; an index that is not listed holds the unspecified reset
content of R24 (`State.word` in Ops.lean, log 4). -/
abbrev Memory := List (Nat × Word)

/-- The values of the input ports at one clock edge (R23). -/
structure PortEdge where
  /-- synchronous reset, active high -/
  rst : Bool
  /-- `cmd_valid` -/
  cmdValid : Bool
  /-- `cmd[33:0]` -/
  cmd : CmdWord
  deriving DecidableEq, Repr

/-- An edge that presents the command word `c`. -/
def PortEdge.command (c : CmdWord) : PortEdge := { rst := false, cmdValid := true, cmd := c }

/-- Why the model stops. The faults of the spec (E_ENC, E_SEQ, E_CAP) are none of these: they are taken, as next states
(R84, log 7). The one reason is ruled out in every state that meets `State.Inv` (R26, R35). -/
inductive Fault where
  /-- An access at a word index outside `0 .. BUF_WORDS - 1`, an address that does not exist (R28). Raised by
  `State.memRead` and `State.memWrite` (PUSH, FINISH). Safe: a state that R26 excludes; the model stops (log 6). -/
  | bufIndexOutOfRange
  deriving DecidableEq, Repr

/-- Why an instruction has no meaning in the model. -/
inductive Refusal where
  /-- The instruction of the opcode table has no meaning yet. Raised by no arm of `exec`. Safe. -/
  | notModelled (mnemonic : String)
  deriving DecidableEq, Repr

/-- The state: the registers of 10_state.md section 9 and BUF, the instance's parameter, and the inputs to come. -/
structure State where
  /-- LEN (R14) -/
  len : Word
  /-- WC (R15) -/
  wc : Word
  /-- IDX (R16) -/
  idx : Word
  /-- ACC (R17) -/
  acc : Word
  /-- BLEN (R19) -/
  blen : Word
  /-- PHASE (R20) -/
  phase : Phase
  /-- ECODE (R21) -/
  ecode : Ecode
  /-- BUF (R24): the words written since reset -/
  buf : Memory
  /-- The number of the reset whose unspecified content the other words of BUF hold (R24, R97). It is no state of the
  engine; it is the counter of the free value `Config.resetWord` (log 4). -/
  draws : Nat
  /-- The design parameter BUF_WORDS (R8), which no step changes. It is no state of the engine (R25); it stands here
  because the step has no other argument (log 1). -/
  cfg : Config
  /-- The input ports at the clock edges to come, the next one first. It is no state of the engine (R13, R25); it is
  the host's command sequence, the step's only other input (log 2). -/
  edges : List PortEdge
  deriving DecidableEq, Repr

/-- What a step answers. -/
abbrev Answer := Host.Outcome State Fault Refusal

/-- The reset state (R96): every register 0, PHASE = IDLE, ECODE = 0, every word of BUF unspecified. The capacity and the
number of the draw are DESIGN CHOICES (log 1, log 4); no input is pending (log 2). -/
def State.reset : State where
  len := 0
  wc := 0
  idx := 0
  acc := 0
  blen := 0
  phase := .idle
  ecode := .none
  buf := []
  draws := 0
  cfg := Config.testVectors
  edges := []

end Sys2Proof.Machine
end

