-- ==== Sys2Proof/Machine/Operands.lean ====
section
/-! DEFINITION. What the commands compute from their argument and from LEN, and the implicit buffer addresses.
There are no register operands and no addressing modes (R42, R110): the argument is used as it stands. -/

namespace Sys2Proof.Machine

/-- BufferLength (R52): "In 32-bit arithmetic this is `(N >> 5) + 1`". Kept literally (R54). -/
def bufferLength (n : Word) : Word := (n >>> 5) + 1

/-- The trailing count (R63): "in 32-bit arithmetic `N & 31`". -/
def trailingCount (n : Word) : Word := n &&& 31

/-- CW (R71): `(N >> 5) + (1 if (N & 31) != 0 else 0)`, the number of words the copy moves. -/
def copyWords (n : Word) : Word := (n >>> 5) + (if n &&& 31 ≠ 0 then 1 else 0)

/-- The address PUSH writes (R110): IDX. -/
def State.pushIndex (s : State) : Nat := s.idx.toNat

/-- The address of the last word of the operation's buffer, where FINISH applies the mask (R65, R110): `WC - 1`,
in the 32-bit arithmetic of R11. -/
def State.lastIndex (s : State) : Nat := (s.wc - 1).toNat

end Sys2Proof.Machine
end

