-- ==== Sys2Proof/Machine/Reducer.lean ====
section
/-! DEFINITION. `parallel_bitcount_reducer`: the per-word count PC32, stage by stage (R55 to R61). -/

namespace Sys2Proof.Machine

/-- Stage 1, pairs (R56). -/
def stageA (w : Word) : Word := w - ((w >>> 1) &&& 0x55555555)

/-- Stage 2, nibbles (R57). -/
def stageB (a : Word) : Word := (a &&& 0x33333333) + ((a >>> 2) &&& 0x33333333)

/-- Stage 3a, bytes (R58): "first the 32-bit addition of `b` and `b >> 4`, then the mask applied to the sum".
The other grouping must not be used (R61, R101; 90_conflicts.md C2). -/
def stageD (b : Word) : Word := (b + (b >>> 4)) &&& 0x0F0F0F0F

/-- Stage 3b, the product (R59): the low 32 bits, the overflow dropped (R102). -/
def stageP (d : Word) : Word := d * 0x01010101

/-- PC32 (R59). -/
def pc32 (w : Word) : Word := stageP (stageD (stageB (stageA w))) >>> 24

end Sys2Proof.Machine
end

