-- ==== Sys2Proof/Machine/AccumulatorMask.lean ====
section
/-! DEFINITION. `bit_accumulator_with_mask`: the trailing mask and the sum (R62 to R69). -/

namespace Sys2Proof.Machine

/-- ALL_ONES (R62). -/
def allOnes : Word := 0xFFFFFFFF

/-- TMASK (R64): `~(ALL_ONES << t)`; `TMASK(0)` is 0 and not all ones (R103). -/
def tmask (t : Word) : Word := ~~~(allOnes <<< t)

/-- What the mask of R65 leaves of the last buffer word `x` for a length `n`. -/
def maskedLast (n x : Word) : Word := x &&& tmask (trailingCount n)

/-- ACCSTEP (R66): `acc + PC32(x)`, a 32-bit addition. -/
def accStep (acc x : Word) : Word := acc + pc32 x

/-- FOLD (R67) over a list of words in ascending order, starting from 0. -/
def foldWords (b : List Word) : Word := b.foldl accStep 0

/-- The single-expression step of R66 for word index `j` of `wc` words: the mask taken on the fly. -/
def streamStep (n wc : Word) (acc : Word) (j : Nat) (x : Word) : Word :=
  acc + pc32 (x &&& (if j ≠ (wc - 1).toNat then allOnes else tmask (trailingCount n)))

end Sys2Proof.Machine
end

