-- ==== Sys2Proof/Machine/Flags.lean ====
section
/-! DEFINITION. The status state: the codes of PHASE and ECODE, the STATUS word, and the conditions on PHASE and IDX
under which a command is in sequence. There are no condition codes: no arithmetic of the engine records a flag (R22). -/

namespace Sys2Proof.Machine

/-- The 2-bit value of PHASE (R20). -/
def Phase.code : Phase → BitVec 2
  | .idle => 0
  | .load => 1
  | .done => 2
  | .fault => 3

/-- The 2-bit value of ECODE (R21, R80). -/
def Ecode.code : Ecode → BitVec 2
  | .none => 0
  | .enc => 1
  | .seq => 2
  | .cap => 3

/-- R22: "As a 4-bit status word `STATUS[3:2] = ECODE`, `STATUS[1:0] = PHASE`." -/
def State.status (s : State) : BitVec 4 := s.ecode.code ++ s.phase.code

/-- START is in sequence when no operation is open (R72, R82 (a)). -/
def State.startInSequence (s : State) : Bool := s.phase != .load

/-- PUSH is in sequence when an operation is open and a word is still missing (R73, R82 (b), (c)). -/
def State.pushInSequence (s : State) : Bool := s.phase == .load && decide (s.idx < copyWords s.len)

/-- FINISH is in sequence when an operation is open and the copy is complete (R74, R82 (d), (e)). -/
def State.finishInSequence (s : State) : Bool := s.phase == .load && s.idx == copyWords s.len

/-- R83: the word count of length `n`, compared in N with BUF_WORDS. -/
def State.lengthFits (s : State) (n : Word) : Bool := decide ((bufferLength n).toNat ≤ s.cfg.bufWords)

end Sys2Proof.Machine
end

