-- ==== Sys2Proof/Machine/Ops.lean ====
section
/-! DEFINITION. The operations the commands share: BUF, its accesses and loops, fault entry, reset. -/

namespace Sys2Proof.Machine

/-! ### BUF as data -/

/-- The word at an index, if anything has written it since reset. -/
def Memory.read : Memory → Nat → Option Word
  | [], _ => none
  | (k, v) :: m, i => if i = k then some v else Memory.read m i

/-- Set the word at an index, keeping the indices rising. -/
def Memory.write : Memory → Nat → Word → Memory
  | [], i, w => [(i, w)]
  | (k, v) :: m, i, w =>
    if i < k then (i, w) :: (k, v) :: m
    else if i = k then (i, w) :: m
    else (k, v) :: Memory.write m i w

/-- The canonical form: indices strictly rising. The list says what has been written since reset: an unlisted index reads
as no value here, so no entry can equal it (log 14). -/
abbrev Memory.wf (m : Memory) : Prop := m.Pairwise (fun a b => a.1 < b.1)

/-- The state with another content of BUF. -/
def State.setBuf (s : State) (m : Memory) : State := { s with buf := m }

/-- `BUF[i]`: the most recent write to the index, "or the unspecified reset content if none" (R37), which is a free value
(R24, log 4). -/
def State.word (s : State) (i : Nat) : Word := (s.buf.read i).getD (Config.resetWord s.draws i)

/-! ### Accesses: whole words at a word index (R28, R32) -/

/-- `MemRead(i, 32)` (R12). -/
def State.memRead (s : State) (i : Nat) : Except Fault Word :=
  if i < s.cfg.bufWords then .ok (s.word i) else .error .bufIndexOutOfRange

/-- `MemWrite(i, 32, v)` (R12). -/
def State.memWrite (s : State) (i : Nat) (v : Word) : Except Fault State :=
  if i < s.cfg.bufWords then .ok (s.setBuf (s.buf.write i v)) else .error .bufIndexOutOfRange

/-- `for i in 0 .. k-1: MemWrite(i, 32, 0)`, the zero fill of START (R72). -/
def State.zeroFill (s : State) : Nat → Except Fault State
  | 0 => .ok s
  | k + 1 =>
    match s.zeroFill k with
    | .ok t => t.memWrite k 0
    | .error f => .error f

/-- `for i in 0 .. k-1: ACC <- ACC + PC32(MemRead(i, 32))`, the counting loop of FINISH (R74): the value ACC ends with. -/
def State.countWords (s : State) : Nat → Except Fault Word
  | 0 => .ok s.acc
  | k + 1 =>
    match s.countWords k with
    | .error f => .error f
    | .ok acc =>
      match s.memRead k with
      | .ok x => .ok (accStep acc x)
      | .error f => .error f

/-- The answer of a command whose accesses gave `r`. -/
def answerOf : Except Fault State → Answer
  | .ok t => .next t
  | .error f => .fault f

/-! ### Faults (R84, R85) and reset (R96) -/

/-- Fault entry (R84): "does exactly: `PHASE <- FAULT; ECODE <- code`". There is no return from a fault (R86). -/
def State.raise (s : State) (code : Ecode) : State := { s with phase := .fault, ecode := code }

/-- R85: in phase FAULT a command is discarded, with no state change; else it goes on as `k` says. -/
def State.unlessFault (s : State) (k : Answer) : Answer := if s.phase = .fault then .next s else k

/-- What an ILLEGAL word does (R45, R81, R85). -/
def State.illegalWord (s : State) : Answer := s.unlessFault (.next (s.raise .enc))

/-- A clock edge with `rst = 1` (R96): the reset state, for this instance and the inputs still to come. Every word of BUF
is unspecified again, whatever it was: a new draw (R97, log 8). -/
def State.resetEdge (s : State) : State := { State.reset with cfg := s.cfg, draws := s.draws + 1, edges := s.edges }

end Sys2Proof.Machine
end

