-- ==== Sys2Proof/Machine/BufferLength.lean ====
section
/-! DEFINITION. The BufferLength operation: BUFLEN (R53). -/

namespace Sys2Proof.Machine

/-- `BLEN <- v`. -/
def State.setBlen (s : State) (v : Word) : State := { s with blen := v }

/-- BUFLEN n (R53): `BLEN <- (n >> 5) + 1`, in every phase but FAULT; it never faults and does not check capacity. -/
def execBuflen (n : Word) (s : State) : Answer :=
  s.unlessFault (.next (s.setBlen (bufferLength n)))

end Sys2Proof.Machine
end

