-- ==== Sys2Proof/Machine/Cardinality.lean ====
section
/-! DEFINITION. The Cardinality operation: START, PUSH, FINISH (R70 to R75). The checks stand in the order of R88. -/

namespace Sys2Proof.Machine

/-- The register writes of an accepted START n (R72). -/
def State.openOperation (s : State) (n : Word) : State :=
  { s with len := n, wc := bufferLength n, idx := 0, acc := 0, phase := .load }

/-- START n (R72). -/
def execStart (n : Word) (s : State) : Answer :=
  s.unlessFault
    (if s.startInSequence then
      if s.lengthFits n then answerOf ((s.openOperation n).zeroFill (bufferLength n).toNat)
      else .next (s.raise .cap)
    else .next (s.raise .seq))

/-- The IDX increment of an accepted PUSH (R73). -/
def State.advanceIndex (s : State) : State := { s with idx := s.idx + 1 }

/-- PUSH w (R73): the write at IDX, then IDX plus one. -/
def execPush (w : Word) (s : State) : Answer :=
  s.unlessFault
    (if s.pushInSequence then
      match s.memWrite s.pushIndex w with
      | .ok t => .next t.advanceIndex
      | .error f => .fault f
    else .next (s.raise .seq))

/-- Step 3 of R74: the mask on the last word of the buffer, in place (R65). -/
def State.maskLast (s : State) : Except Fault State :=
  match s.memRead s.lastIndex with
  | .ok x => s.memWrite s.lastIndex (maskedLast s.len x)
  | .error f => .error f

/-- The register writes at the end of FINISH (R74), with the sum `acc`. -/
def State.closeOperation (s : State) (acc : Word) : State := { s with acc := acc, idx := s.wc, phase := .done }

/-- Steps 4 and 5 of R74 on the masked buffer: every one of the WC words counted (R67). -/
def State.countAndClose (s : State) : Except Fault State :=
  match s.countWords s.wc.toNat with
  | .ok acc => .ok (s.closeOperation acc)
  | .error f => .error f

/-- FINISH (R74). Its reserved argument is checked by the decoder (R45), before these checks (R88). -/
def execFinish (s : State) : Answer :=
  s.unlessFault
    (if s.finishInSequence then
      match s.maskLast with
      | .ok t => answerOf t.countAndClose
      | .error f => .fault f
    else .next (s.raise .seq))

end Sys2Proof.Machine
end

