-- ==== Sys2Proof/Machine/Dispatch.lean ====
section
/-! DEFINITION. The dispatch: one arm per command. -/

namespace Sys2Proof.Machine

def exec (i : Instr) (s : State) : Host.Outcome State Fault Refusal :=
  match i with
  | .buflen n => Sys2Proof.Machine.execBuflen n s
  | .start n => Sys2Proof.Machine.execStart n s
  | .push w => Sys2Proof.Machine.execPush w s
  | .finish => Sys2Proof.Machine.execFinish s

end Sys2Proof.Machine
end

