-- ==== Sys2Proof/Machine/Ports.lean ====
section
/-! DEFINITION. The output ports at a command boundary (R23, R27). BUF and the other registers are on no port (R24). -/

namespace Sys2Proof.Machine

/-- The values of the output ports (R23). -/
structure Ports where
  cmdReady : Bool
  countO : Word
  blenO : Word
  phaseO : BitVec 2
  ecodeO : BitVec 2
  deriving DecidableEq, Repr

/-- `cmd_ready` at a command boundary: 1, in every phase, FAULT included (R27, R85, R106; log 9). -/
def State.cmdReady (_ : State) : Bool := true

/-- The output ports (R23): `count_o = ACC`, `blen_o = BLEN`, `phase_o = PHASE`, `ecode_o = ECODE`. -/
def State.ports (s : State) : Ports where
  cmdReady := s.cmdReady
  countO := s.acc
  blenO := s.blen
  phaseO := s.phase.code
  ecodeO := s.ecode.code

/-- The Cardinality result as the host may take it: R104, "`count_o` is a Cardinality result only while
`phase_o = DONE`". -/
def State.countResult (s : State) : Option Word := if s.phase = .done then some s.ports.countO else none

end Sys2Proof.Machine
end

