-- ==== Sys2Proof/Machine/Accept.lean ====
section
/-! DEFINITION. The command port: reset, acceptance and decoding at a clock edge (R23, R96). -/

namespace Sys2Proof.Machine

/-- An accepted word: the command it decodes to, or the ILLEGAL word (R44, R81). -/
def acceptWord (c : CmdWord) (s : State) : Answer :=
  match decode c with
  | .ok i => exec i s
  | .error _ => s.illegalWord

/-- One clock edge at a command boundary. Reset wins over a command presented at the same edge (R96); a command is
accepted when `rst = 0` and `cmd_valid = cmd_ready = 1` (R23); else the engine is idle (R13, R95). -/
def clockEdge (e : PortEdge) (s : State) : Answer :=
  if e.rst then .next s.resetEdge
  else if e.cmdValid && s.cmdReady then acceptWord e.cmd s
  else .next s

/-- The state with other inputs to come. -/
def State.setEdges (s : State) (es : List PortEdge) : State := { s with edges := es }

/-- The next clock edge. With no input to come the engine stays as it is (R13, R95). -/
def nextEdge (s : State) : Answer :=
  match s.edges with
  | [] => .next s
  | e :: rest => clockEdge e (s.setEdges rest)

/-- The state with the command word `c` presented at the next clock edge, before the inputs still to come. -/
def State.present (s : State) (c : CmdWord) : State := s.setEdges (PortEdge.command c :: s.edges)

end Sys2Proof.Machine
end

