-- ==== Sys2Proof/Machine/Step.lean ====
section
/-! DEFINITION. The step, and how a table word is placed before it. -/

namespace Sys2Proof.Machine

/-- One step: the next clock edge of the input ports (R13, R23). -/
def step (s : State) : Host.Outcome State Fault Refusal := nextEdge s

/-- The opcode-table word `w` of `nbits` bits presented as the next command (the engine fetches nothing, R18; log 11,
log 12). -/
def State.withFetchWord (s : State) (nbits w : Nat) : State := s.present (cmdOfNat (w % 2 ^ nbits))

end Sys2Proof.Machine
end

