-- ==== Sys2Proof/Machine/FunctionLayer.lean ====
section
/-! DEFINITION. The function layer (R3): Pack, Cardinality, and the document's algorithm CardW (R29, R76), on plain lists. -/

namespace Sys2Proof.Machine

/-- The number of one bits of a word: `sum over k in 0..31 of w[k]` (R60). -/
def bitCount (w : Word) : Nat := ((List.range 32).map fun k => (w.getLsbD k).toNat).sum

/-- Vector bit `i` of packed words: bit `i mod 32` of word `i div 32` (R29). -/
def vectorBit (ws : List Word) (i : Nat) : Bool := (ws.getD (i / 32) 0).getLsbD (i % 32)

/-- `sum over i in 0 .. N-1 of w[i div 32][i mod 32]`, the first definition of CardW (R76). -/
def cardBits (n : Nat) (ws : List Word) : Nat := ((List.range n).map fun i => (vectorBit ws i).toNat).sum

/-- Cardinality of a bit vector: "the number of bits equal to true in positions `0..N-1`" (R76). -/
def cardinality (v : List Bool) : Nat := v.count true

/-- `Pack(v)[j]` (R29): `sum over k in 0..31 with 32*j + k < N of v[32*j + k] * 2^k`. -/
def packWord (v : List Bool) (j : Nat) : Word :=
  BitVec.ofNat 32 ((List.range 32).map fun k => (v.getD (32 * j + k) false).toNat * 2 ^ k).sum

/-- `Pack(v)` (R29): the list of `ceil(N/32)` words. -/
def pack (v : List Bool) : List Word := (List.range ((v.length + 31) / 32)).map (packWord v)

/-- Step 1 (R76): "array of WC zero words". -/
def allocate (n : Word) : List Word := List.replicate (bufferLength n).toNat 0

/-- Step 2 (R76): `for j in 0 .. CW(N)-1: B[j] = w[j]`, on the allocated buffer. -/
def copyIn (n : Word) (w b : List Word) : List Word :=
  (List.range b.length).map fun j => if j < (copyWords n).toNat then w.getD j 0 else b.getD j 0

/-- Step 3 (R65, R76): the mask on word `WC - 1`. -/
def maskLastWord (n : Word) (b : List Word) : List Word :=
  b.set (bufferLength n - 1).toNat (maskedLast n (b.getD (bufferLength n - 1).toNat 0))

/-- `CardW(N, w)` by the document's five steps (R76). -/
def cardW (n : Word) (w : List Word) : Word := foldWords (maskLastWord n (copyIn n w (allocate n)))

/-- The canonical sequence of R75: `START N; PUSH w[0]; ...; PUSH w[CW(N)-1]; FINISH`. -/
def canonical (n : Word) (ws : List Word) : List Instr := .start n :: (ws.map .push ++ [.finish])

end Sys2Proof.Machine
end

