-- ==== Sys2Proof/Machine/Assembler.lean ====
section
/-! DEFINITION. The assembler of R48 to R51: source lines, pseudo-commands, and the line syntax. A tool on the host's
side of the port: no state of the engine. -/

namespace Sys2Proof.Machine

/-- A source line (R48 to R50). Numbers are as written, before the check that they fit. -/
inductive SourceLine where
  /-- `buflen <n>` -/
  | buflen (n : Nat)
  /-- `start <n>` -/
  | start (n : Nat)
  /-- `push <w>` -/
  | push (w : Nat)
  /-- `finish` -/
  | finish
  /-- `.cmd <34-bit number>` -/
  | cmd (c : Nat)
  /-- `card <N>, <w0>, ..., <w(CW-1)>` (R49) -/
  | card (n : Nat) (ws : List Nat)
  /-- `card.bits <b0 b1 ... b(N-1)>`, index 0 first (R50) -/
  | cardBits (bits : List Bool)
  deriving DecidableEq, Repr

/-- R48: "a number is decimal or `0x` hexadecimal and must fit 32 bits". -/
def fitsWord (n : Nat) : Bool := decide (n < 2 ^ 32)

/-- What the assembler accepts: numbers fit (R48), and `card` has exactly `CW(N)` word operands (R49). -/
def SourceLine.wellFormed : SourceLine → Bool
  | .buflen n => fitsWord n
  | .start n => fitsWord n
  | .push w => fitsWord w
  | .finish => true
  | .cmd c => decide (c < 2 ^ 34)
  | .card n ws => fitsWord n && ws.all fitsWord && ws.length == (copyWords (BitVec.ofNat 32 n)).toNat
  | .cardBits bits => fitsWord bits.length

/-- The command words of a source line that is well formed (R48 to R50). -/
def SourceLine.words : SourceLine → List CmdWord
  | .buflen n => [encode (.buflen (BitVec.ofNat 32 n))]
  | .start n => [encode (.start (BitVec.ofNat 32 n))]
  | .push w => [encode (.push (BitVec.ofNat 32 w))]
  | .finish => [encode .finish]
  | .cmd c => [cmdOfNat c]
  | .card n ws => (canonical (BitVec.ofNat 32 n) (ws.map (BitVec.ofNat 32))).map encode
  | .cardBits bits => (canonical (BitVec.ofNat 32 bits.length) (pack bits)).map encode

/-- Assemble a source line; none if the assembler rejects it. -/
def assembleLine (l : SourceLine) : Option (List CmdWord) := if l.wellFormed then some l.words else none

/-! ### The line syntax (R48). Spacing, and what counts as a digit, are the model's reading (log 13). -/

def isBlank (c : Char) : Bool := c == ' ' || c == '\t' || c == '\r'

/-- The line without its comment: "`;` starts a comment". -/
def stripComment (l : List Char) : List Char := l.takeWhile (· != ';')

def trimLeft (l : List Char) : List Char := l.dropWhile isBlank

def trim (l : List Char) : List Char := (trimLeft (trimLeft l).reverse).reverse

def lowerChar (c : Char) : Char := if 65 ≤ c.toNat ∧ c.toNat ≤ 90 then Char.ofNat (c.toNat + 32) else c

/-- The value of a digit in base 10 or 16. -/
def digitValue (base : Nat) (c : Char) : Option Nat :=
  let d := (lowerChar c).toNat
  let v := if 48 ≤ d ∧ d ≤ 57 then some (d - 48) else if 97 ≤ d ∧ d ≤ 102 then some (d - 87) else none
  v.filter (· < base)

/-- The number that digits write, most significant first. -/
def digitsValue (base : Nat) : Nat → List Char → Option Nat
  | acc, [] => some acc
  | acc, c :: cs =>
    match digitValue base c with
    | some v => digitsValue base (acc * base + v) cs
    | none => none

/-- A number: decimal or `0x` hexadecimal, at least one digit. -/
def parseNumber (l : List Char) : Option Nat :=
  match l with
  | '0' :: x :: c :: cs => if x = 'x' ∨ x = 'X' then digitsValue 16 0 (c :: cs) else digitsValue 10 0 l
  | [] => none
  | _ => digitsValue 10 0 l

/-- The comma-separated operands after a mnemonic. -/
def splitOperands (l : List Char) : List (List Char) := if trim l = [] then [] else (l.splitOn ',').map trim

def parseNumbers (l : List (List Char)) : Option (List Nat) := l.mapM parseNumber

def parseBit (c : Char) : Option Bool := if c = '0' then some false else if c = '1' then some true else none

/-- Read a line: `none` for a line the assembler rejects, `some none` for an empty one. -/
def parseLine (line : List Char) : Option (Option SourceLine) :=
  let l := trim (stripComment line)
  let mnemonic := (l.takeWhile (!isBlank ·)).map lowerChar
  let rest := trim (l.dropWhile (!isBlank ·))
  if l = [] then some none
  else if mnemonic = "card.bits".toList then (rest.mapM parseBit).map fun bs => some (.cardBits bs)
  else
    match parseNumbers (splitOperands rest) with
    | none => none
    | some ops =>
      if mnemonic = "card".toList then
        match ops with
        | n :: ws => some (some (.card n ws))
        | [] => none
      else
        match ops with
        | [] => if mnemonic = "finish".toList then some (some .finish) else none
        | [n] =>
          if mnemonic = "buflen".toList then some (some (.buflen n))
          else if mnemonic = "start".toList then some (some (.start n))
          else if mnemonic = "push".toList then some (some (.push n))
          else if mnemonic = ".cmd".toList then some (some (.cmd n))
          else none
        | _ => none

/-- Assemble lines, in order; none if one of them is rejected. -/
def assembleLines : List (List Char) → Option (List CmdWord)
  | [] => some []
  | l :: ls =>
    match parseLine l, assembleLines ls with
    | some none, some cs => some cs
    | some (some src), some cs => (assembleLine src).map (· ++ cs)
    | _, _ => none

/-- Assemble a source text: one command per line (R48). -/
def assemble (text : List Char) : Option (List CmdWord) := assembleLines (text.splitOn '\n')

end Sys2Proof.Machine
end

