-- ==== Sys2Proof/Safety.lean ====
section
/-! DEFINITION. The terms claims use: the invariants of R26, runs over command sequences, and what a safe run is. -/

namespace Sys2Proof.Machine

/-- The words `BUF[0 .. k-1]`, in order. -/
def State.words (s : State) (k : Nat) : List Word := (List.range k).map s.word

/-- The word count of the open or finished operation (R15): `WC = (LEN >> 5) + 1`, `1 <= WC <= BUF_WORDS`. -/
abbrev State.WordCountFits (s : State) : Prop :=
  s.wc = bufferLength s.len ∧ 1 ≤ s.wc.toNat ∧ s.wc.toNat ≤ s.cfg.bufWords

/-- R26 item 1. -/
abbrev State.IdleInv (s : State) : Prop :=
  s.phase = .idle → s.len = 0 ∧ s.wc = 0 ∧ s.idx = 0 ∧ s.acc = 0

/-- R26 item 2. -/
abbrev State.LoadInv (s : State) : Prop :=
  s.phase = .load → s.WordCountFits ∧ s.idx ≤ copyWords s.len ∧ copyWords s.len ≤ s.wc ∧ s.acc = 0 ∧
    ∀ i < s.wc.toNat, s.idx.toNat ≤ i → s.word i = 0

/-- R26 item 3. -/
abbrev State.DoneInv (s : State) : Prop :=
  s.phase = .done → s.WordCountFits ∧ s.idx = s.wc ∧ s.acc.toNat ≤ s.len.toNat ∧
    s.acc.toNat = ((s.words s.wc.toNat).map bitCount).sum ∧ s.word s.lastIndex &&& ~~~ tmask (trailingCount s.len) = 0

/-- R26 item 4: "`PHASE = FAULT` if and only if `ECODE != 0`". -/
abbrev State.FaultInv (s : State) : Prop := s.phase = .fault ↔ s.ecode ≠ .none

/-- R26 item 5: "`BLEN = 0` or `1 <= BLEN <= 2^27`". -/
abbrev State.BlenInv (s : State) : Prop := s.blen = 0 ∨ (1 ≤ s.blen.toNat ∧ s.blen.toNat ≤ Config.maxBufWords)

/-- BUF is in canonical form and lists only indices of R28's address space. -/
abbrev State.BufInv (s : State) : Prop := s.buf.wf ∧ ∀ c ∈ s.buf, c.1 < s.cfg.bufWords

/-- The invariants of R26, with the form of BUF and the range of the capacity (R8). -/
abbrev State.Inv (s : State) : Prop :=
  s.cfg.Valid ∧ s.BufInv ∧ s.IdleInv ∧ s.LoadInv ∧ s.DoneInv ∧ s.FaultInv ∧ s.BlenInv

/-- The five cases of R82, one command at a time. -/
def State.OutOfSequence (s : State) : Instr → Prop
  | .buflen _ => False
  | .start _ => s.phase = .load
  | .push _ => s.phase = .idle ∨ s.phase = .done ∨ (s.phase = .load ∧ s.idx = copyWords s.len)
  | .finish => s.phase = .idle ∨ s.phase = .done ∨ (s.phase = .load ∧ s.idx < copyWords s.len)

/-- The command `i` is accepted at the next clock edge (R23). -/
def State.Accepts (s : State) (i : Instr) : Prop :=
  ∃ e rest, s.edges = e :: rest ∧ e.rst = false ∧ e.cmdValid = true ∧ decode e.cmd = .ok i

/-- The next clock edge is a reset edge (R96). -/
def State.Resets (s : State) : Prop := ∃ e rest, s.edges = e :: rest ∧ e.rst = true

/-- Whether a decoded word is anything but a BUFLEN, the one command with no effect on an operation (R46, R75). -/
def notBuflen : Except DecodeError Instr → Bool
  | .ok (.buflen _) => false
  | .ok (.start _) => true
  | .ok (.push _) => true
  | .ok .finish => true
  | .error _ => true

/-- An operation for length `n` may be opened (R75, R77): phase IDLE or DONE, and `floor(N/32) + 1 <= BUF_WORDS`. -/
abbrev State.Ready (s : State) (n : Word) : Prop :=
  (s.phase = .idle ∨ s.phase = .done) ∧ n.toNat / 32 + 1 ≤ s.cfg.bufWords

/-- The state with the words `cs` presented one after the other at the next clock edges. -/
def State.presentAll (s : State) (cs : List CmdWord) : State := s.setEdges (cs.map PortEdge.command ++ s.edges)

/-- The state after `cs.length` steps on the presented words. -/
def State.runWords (s : State) (cs : List CmdWord) : Answer :=
  Host.Core.run Sys2Proof.core cs.length (s.presentAll cs)

/-- A safe answer: a next state whose engine is not in phase FAULT (R85: "no claim of a correct result can be made"). -/
def SafeAnswer : Answer → Prop
  | .next t => t.phase ≠ .fault
  | .fault _ => False
  | .refused _ => False

/-- Two states that differ at most in words of BUF that no command of the future may depend on (R24, R79, R97), those that
nothing has written since reset included: all registers, the instance and the inputs agree; in phase LOAD the words
`0 .. WC-1` agree too. -/
def State.SameButStaleBuf (s t : State) : Prop :=
  t = { s with buf := t.buf, draws := t.draws } ∧ (s.phase = .load → ∀ i < s.wc.toNat, t.word i = s.word i)

end Sys2Proof.Machine
end

