-- ==== Sys2Proof/Certificates/Slice0/Obligations.lean ====
section
/-! DEFINITION. The statements for the provers. -/

open Sys2Proof Sys2Proof.Machine

/-! ### Encoding -/

/-- Words of 95_test_vectors.md section 2.6 decode as its table says; a sanity statement. -/
def Obligations.TableWordsDecode : Prop :=
  decode 0x000000000 = .ok (.buflen 0) ∧ decode 0x0FFFFFFFF = .ok (.buflen 4294967295) ∧
  decode 0x100000021 = .ok (.start 33) ∧ decode 0x20000002D = .ok (.push 0x2D) ∧
  decode 0x300000000 = .ok .finish ∧ decode 0x300000001 = .error (.finishArgNotZero 1) ∧
  decode 0x380000000 = .error (.finishArgNotZero 0x80000000)

/-- 30_encoding.md section 3: decode and encode undo each other, on every command and on every word that is no ILLEGAL
one. (The spec marks the sentence as derived from its rules.) -/
def Obligations.DecodeAndEncodeAgree : Prop :=
  (∀ i : Instr, i.wellFormed = true → decode (encode i) = .ok i) ∧
  (∀ (c : CmdWord) (i : Instr), decode c = .ok i → i.wellFormed = true ∧ encode i = c)

/-- R42: the argument of the decoded command is `cmd[31:0]` as it stands, and FINISH takes only zero. -/
def Obligations.ArgumentIsUsedAsItStands : Prop :=
  ∀ c : CmdWord,
    (c.toNat / 2 ^ 32 = 0 → decode c = .ok (.buflen (BitVec.ofNat 32 (c.toNat % 2 ^ 32)))) ∧
    (c.toNat / 2 ^ 32 = 1 → decode c = .ok (.start (BitVec.ofNat 32 (c.toNat % 2 ^ 32)))) ∧
    (c.toNat / 2 ^ 32 = 2 → decode c = .ok (.push (BitVec.ofNat 32 (c.toNat % 2 ^ 32)))) ∧
    (decode c = .ok .finish ↔ c.toNat / 2 ^ 32 = 3 ∧ c.toNat % 2 ^ 32 = 0)

/-- R43: the map of match and mask gives each word the command the decoder gives it. -/
def Obligations.MatchAndMaskDecide : Prop :=
  ∀ c : CmdWord,
    ((∃ n, decode c = .ok (.buflen n)) ↔ c &&& 0x300000000 = 0x000000000) ∧
    ((∃ n, decode c = .ok (.start n)) ↔ c &&& 0x300000000 = 0x100000000) ∧
    ((∃ w, decode c = .ok (.push w)) ↔ c &&& 0x300000000 = 0x200000000) ∧
    (decode c = .ok .finish ↔ c &&& 0x3FFFFFFFF = 0x300000000) ∧
    opcodeMap = [⟨0x000000000, 0x300000000⟩, ⟨0x100000000, 0x300000000⟩, ⟨0x200000000, 0x300000000⟩,
      ⟨0x300000000, 0x3FFFFFFFF⟩]

/-- R45, R81: the ILLEGAL words are exactly `0x300000001 .. 0x3FFFFFFFF`, and an accepted one raises E_ENC in every phase
but FAULT, whatever FINISH would have done. -/
def Obligations.IllegalWordsRaiseEEnc : Prop :=
  ∀ c : CmdWord,
    ((∃ e, decode c = .error e) ↔ 0x300000001 ≤ c.toNat ∧ c.toNat ≤ 0x3FFFFFFFF) ∧
    (0x300000001 ≤ c.toNat → ∀ s : State, s.phase ≠ .fault →
      step (s.present c) = .next { s with phase := .fault, ecode := .enc })

/-- Section 3 of 30_encoding.md: "Exactly `2^32 - 1` of the `2^34` words decode to ILLEGAL." -/
def Obligations.CountOfIllegalWords : Prop :=
  Set.ncard {c : CmdWord | ∃ e, decode c = .error e} = 2 ^ 32 - 1

/-! ### The function layer -/

/-- R52: BufferLength is `floor(N/32) + 1`; between 1 and 2^27 (derived there); against `ceil(N/32)` in the two cases. -/
def Obligations.BufferLengthIsFloorPlusOne : Prop :=
  ∀ n : Word,
    (bufferLength n).toNat = n.toNat / 32 + 1 ∧
    1 ≤ (bufferLength n).toNat ∧ (bufferLength n).toNat ≤ 2 ^ 27 ∧
    (n.toNat % 32 ≠ 0 → (bufferLength n).toNat = (n.toNat + 31) / 32) ∧
    (n.toNat % 32 = 0 → (bufferLength n).toNat = (n.toNat + 31) / 32 + 1)

/-- R71: CW is `ceil(N/32)`, equal to WC or one less. -/
def Obligations.CopyWordsIsCeiling : Prop :=
  ∀ n : Word,
    (copyWords n).toNat = (n.toNat + 31) / 32 ∧
    (n.toNat % 32 ≠ 0 → copyWords n = bufferLength n) ∧
    (n.toNat % 32 = 0 → copyWords n = bufferLength n - 1)

/-- R63, and R64's equivalent form of TMASK (derived there): the trailing count is `N mod 32`, and TMASK keeps exactly the
bits below it. -/
def Obligations.TrailingMaskKeepsLowBits : Prop :=
  (∀ n : Word, (trailingCount n).toNat = n.toNat % 32) ∧
  (∀ t : Word, t.toNat ≤ 31 → (tmask t).toNat = 2 ^ t.toNat - 1 ∧
    ∀ k < 32, (tmask t).getLsbD k = decide (k < t.toNat))

/-- Sections 2 and 3 of 41_reducer.md, the lane readings of the three stages (derived there): each lane holds the number
of one bits of the same lane of `w`. -/
def Obligations.StagesCountTheirLanes : Prop :=
  ∀ w : Word,
    (∀ j < 16, (stageA w).toNat / 4 ^ j % 4 = (w.getLsbD (2 * j)).toNat + (w.getLsbD (2 * j + 1)).toNat) ∧
    (∀ j < 8, (stageB (stageA w)).toNat / 16 ^ j % 16 =
      ((List.range 4).map fun k => (w.getLsbD (4 * j + k)).toNat).sum) ∧
    (∀ j < 4, (stageD (stageB (stageA w))).toNat / 256 ^ j % 256 =
      ((List.range 8).map fun k => (w.getLsbD (8 * j + k)).toNat).sum)

/-- Section 3 of 41_reducer.md (derived there): PC32 is the number of one bits, for every word. -/
def Obligations.ReducerCountsOneBits : Prop :=
  ∀ w : Word, (pc32 w).toNat = bitCount w ∧ (pc32 w).toNat ≤ 32

/-- Section 3 of 41_reducer.md, consequences (derived there): complement, disjoint union, masking. -/
def Obligations.ReducerAlgebra : Prop :=
  ∀ x y : Word,
    (pc32 (~~~x)).toNat = 32 - (pc32 x).toNat ∧
    (x &&& y = 0 → pc32 (x ||| y) = pc32 x + pc32 y) ∧
    (pc32 (x &&& y)).toNat ≤ (pc32 x).toNat

/-- Section 1 of 42_accumulator_mask.md (the masking invariant, derived there): after the mask, a buffer of WC words has
no one bit at a position `>= N`, and no bit below N has changed. -/
def Obligations.MaskClearsExactlyBeyondLength : Prop :=
  ∀ (n : Word) (b : List Word), b.length = (bufferLength n).toNat →
    ∀ i < 32 * b.length, vectorBit (maskLastWord n b) i = (decide (i < n.toNat) && vectorBit b i)

/-- Section 2 of 42_accumulator_mask.md (the bound, derived there): the masked fold is at most N, and it is the sum of
the per-word counts without any wrap. -/
def Obligations.MaskedFoldNeverWraps : Prop :=
  ∀ (n : Word) (b : List Word), b.length = (bufferLength n).toNat →
    (foldWords (maskLastWord n b)).toNat = ((maskLastWord n b).map bitCount).sum ∧
    (foldWords (maskLastWord n b)).toNat ≤ n.toNat

/-- Section 2 of 42_accumulator_mask.md (the single-expression form, derived there): masking on the fly gives the same
sum. -/
def Obligations.StreamingFoldAgrees : Prop :=
  ∀ (n : Word) (b : List Word), b.length = (bufferLength n).toNat →
    (List.range b.length).foldl (fun acc j => streamStep n (bufferLength n) acc j (b.getD j 0)) 0 =
      foldWords (maskLastWord n b)

/-- Section 5 of 43_cardinality.md (the two definitions of CardW agree, derived there), stray bits allowed. -/
def Obligations.AlgorithmCountsVectorBits : Prop :=
  ∀ (n : Word) (ws : List Word), ws.length = (n.toNat + 31) / 32 → (cardW n ws).toNat = cardBits n.toNat ws

/-- R29: Pack puts bit `i` of the vector at bit `i mod 32` of word `i div 32`, in `ceil(N/32)` words, and 0 elsewhere. -/
def Obligations.PackPlacesBitsInOrder : Prop :=
  ∀ v : List Bool,
    (pack v).length = (v.length + 31) / 32 ∧
    (∀ i < v.length, ((pack v).getD (i / 32) 0).getLsbD (i % 32) = v.getD i false) ∧
    (∀ i, v.length ≤ i → ((pack v).getD (i / 32) 0).getLsbD (i % 32) = false)

/-! ### The commands -/

/-- R53: BUFLEN writes `floor(n/32) + 1` to BLEN and nothing else, in every phase but FAULT, whatever the capacity; its
encoding and its assembler line. -/
def Obligations.BuflenWritesOnlyBlen : Prop :=
  ∀ (n : Word) (s : State),
    ((encode (.buflen n)).toNat = n.toNat ∧ assembleLine (.buflen n.toNat) = some [encode (.buflen n)]) ∧
    (s.phase = .fault → exec (.buflen n) s = .next s) ∧
    (s.phase ≠ .fault → ∃ t, exec (.buflen n) s = .next t ∧ t.blen.toNat = n.toNat / 32 + 1 ∧
      t = { s with blen := t.blen })

/-- R72: START in all its cases, its encoding and its assembler line. The stored words are `0 .. wc-1`, each zero; every
other word, and every register not named, is as before. -/
def Obligations.StartOpensAnOperation : Prop :=
  ∀ (n : Word) (s : State),
    ((encode (.start n)).toNat = 0x100000000 + n.toNat ∧ assembleLine (.start n.toNat) = some [encode (.start n)]) ∧
    (s.phase = .fault → exec (.start n) s = .next s) ∧
    (s.phase = .load → exec (.start n) s = .next { s with phase := .fault, ecode := .seq }) ∧
    ((s.phase = .idle ∨ s.phase = .done) → s.cfg.bufWords < n.toNat / 32 + 1 →
      exec (.start n) s = .next { s with phase := .fault, ecode := .cap }) ∧
    ((s.phase = .idle ∨ s.phase = .done) → n.toNat / 32 + 1 ≤ s.cfg.bufWords →
      ∃ t, exec (.start n) s = .next t ∧
        t = { s with len := n, wc := t.wc, idx := 0, acc := 0, phase := .load, buf := t.buf } ∧
        t.wc.toNat = n.toNat / 32 + 1 ∧
        (∀ i < t.wc.toNat, t.word i = 0) ∧ (∀ i, t.wc.toNat ≤ i → t.word i = s.word i))

/-- R72, corner case (derived there): START n is accepted exactly when `n <= 32 * BUF_WORDS - 1`. -/
def Obligations.StartAcceptsExactlyWhatFits : Prop :=
  ∀ (n : Word) (s : State), (s.phase = .idle ∨ s.phase = .done) →
    ((∃ t, exec (.start n) s = .next t ∧ t.phase = .load) ↔ n.toNat + 1 ≤ 32 * s.cfg.bufWords) ∧
    (s.cfg.bufWords = 2 ^ 27 → ∃ t, exec (.start n) s = .next t ∧ t.phase = .load)

/-- R73: PUSH in all its cases, its encoding and its assembler line. The one stored word is at `State.pushIndex`, which is IDX. Premise of the accepted case:
the address exists (R28; R35 shows that it does in every state a run reaches). -/
def Obligations.PushWritesTheNextWord : Prop :=
  ∀ (w : Word) (s : State),
    ((encode (.push w)).toNat = 0x200000000 + w.toNat ∧ assembleLine (.push w.toNat) = some [encode (.push w)]) ∧
    (s.phase = .fault → exec (.push w) s = .next s) ∧
    ((s.phase = .idle ∨ s.phase = .done) → exec (.push w) s = .next { s with phase := .fault, ecode := .seq }) ∧
    (s.phase = .load → (s.len.toNat + 31) / 32 ≤ s.idx.toNat →
      exec (.push w) s = .next { s with phase := .fault, ecode := .seq }) ∧
    (s.phase = .load → s.idx.toNat < (s.len.toNat + 31) / 32 → s.pushIndex < s.cfg.bufWords →
      ∃ t, exec (.push w) s = .next t ∧ s.pushIndex = s.idx.toNat ∧
        t = { s with idx := t.idx, buf := t.buf } ∧ t.idx.toNat = s.idx.toNat + 1 ∧
        t.word s.pushIndex = w ∧ ∀ i, i ≠ s.pushIndex → t.word i = s.word i)

/-- R74: FINISH in all its cases, its encoding and its assembler line, and that a reserved argument that is not zero
raises E_ENC, whatever the phase but FAULT. Premise of the accepted case: the words `0 .. WC-1` exist, and there is one (R28;
R35 and R26 show it of every state a run reaches). The one stored word is at `State.lastIndex`; ACC gains the counts of the
words after the mask, so it ends as FOLD when it was 0 (R26). -/
def Obligations.FinishMasksAndCounts : Prop :=
  ∀ s : State,
    (encode .finish = 0x300000000 ∧ assembleLine .finish = some [encode .finish]) ∧
    (s.phase ≠ .fault → ∀ a : Word, a ≠ 0 →
      acceptWord (ofFields { op := 3, arg := a }) s = .next { s with phase := .fault, ecode := .enc }) ∧
    (s.phase = .fault → exec .finish s = .next s) ∧
    ((s.phase = .idle ∨ s.phase = .done) → exec .finish s = .next { s with phase := .fault, ecode := .seq }) ∧
    (s.phase = .load → s.idx.toNat ≠ (s.len.toNat + 31) / 32 →
      exec .finish s = .next { s with phase := .fault, ecode := .seq }) ∧
    (s.phase = .load → s.idx.toNat = (s.len.toNat + 31) / 32 → 1 ≤ s.wc.toNat → s.wc.toNat ≤ s.cfg.bufWords →
      ∃ t, exec .finish s = .next t ∧ s.lastIndex = s.wc.toNat - 1 ∧
        t = { s with acc := t.acc, idx := s.wc, phase := .done, buf := t.buf } ∧
        t.word s.lastIndex = s.word s.lastIndex &&& tmask (s.len &&& 31) ∧
        (∀ i, i ≠ s.lastIndex → t.word i = s.word i) ∧
        t.acc = s.acc + ((t.words s.wc.toNat).map pc32).sum ∧ (s.acc = 0 → t.acc = foldWords (t.words s.wc.toNat)))

/-- The model's own stop (log 6), in states that R26 excludes: a PUSH or a FINISH at a word index that does not exist.
Nothing else ever stops a command. No rule of the spec; the model's choice. -/
def Obligations.StopsOutsideTheBuffer : Prop :=
  (∀ s : State, s.phase = .load →
    (∀ w, s.idx < copyWords s.len → s.cfg.bufWords ≤ s.idx.toNat →
      exec (.push w) s = .fault .bufIndexOutOfRange) ∧
    (s.idx = copyWords s.len → s.cfg.bufWords ≤ s.lastIndex → exec .finish s = .fault .bufIndexOutOfRange)) ∧
  (∀ (i : Instr) (s : State) (r : Fault), exec i s = .fault r →
    s.phase = .load ∧ r = .bufIndexOutOfRange ∧
    ((∃ w, i = .push w ∧ s.cfg.bufWords ≤ s.pushIndex) ∨ (i = .finish ∧ s.cfg.bufWords ≤ s.lastIndex)))

/-- Section 9 of 10_state.md, the column "written by": which command may change which register, and that no command
changes the parameter, the draw of the reset content or the inputs to come. -/
def Obligations.RegistersChangeOnlyByTheirWriters : Prop :=
  ∀ (i : Instr) (s t : State), exec i s = .next t →
    (t.len ≠ s.len → ∃ n, i = .start n) ∧
    (t.wc ≠ s.wc → ∃ n, i = .start n) ∧
    (t.idx ≠ s.idx → (∃ n, i = .start n) ∨ (∃ w, i = .push w) ∨ i = .finish) ∧
    (t.acc ≠ s.acc → (∃ n, i = .start n) ∨ i = .finish) ∧
    (t.blen ≠ s.blen → ∃ n, i = .buflen n) ∧
    (t.phase ≠ s.phase → t.phase = .fault ∨ (∃ n, i = .start n) ∨ i = .finish) ∧
    (t.ecode ≠ s.ecode → t.phase = .fault) ∧
    t.cfg = s.cfg ∧ t.draws = s.draws ∧ t.edges = s.edges

/-- R110, the implicit addresses: which words of BUF a command may change. -/
def Obligations.BufferChangesOnlyAtImplicitAddresses : Prop :=
  ∀ (i : Instr) (s t : State), exec i s = .next t → ∀ a, t.word a ≠ s.word a →
    (∃ n, i = .start n ∧ a < n.toNat / 32 + 1 ∧ t.word a = 0) ∨
    (∃ w, i = .push w ∧ a = s.pushIndex ∧ t.word a = w) ∨
    (i = .finish ∧ a = s.lastIndex)

/-- R19, "read by no rule": no command reads BLEN. Whatever BLEN holds, a command answers alike: BLEN is carried along, or,
for an executed BUFLEN, overwritten. -/
def Obligations.BlenInfluencesNothing : Prop :=
  (∀ (i : Instr) (s t : State) (b : Word), (∀ n, i ≠ .buflen n) → exec i s = .next t →
    exec i { s with blen := b } = .next { t with blen := b } ∧ t.blen = s.blen) ∧
  (∀ (n b : Word) (s t : State), exec (.buflen n) s = .next t →
    (s.phase ≠ .fault → exec (.buflen n) { s with blen := b } = .next t) ∧
    (s.phase = .fault → exec (.buflen n) { s with blen := b } = .next { t with blen := b })) ∧
  (∀ (i : Instr) (s : State) (r : Fault) (b : Word), exec i s = .fault r → exec i { s with blen := b } = .fault r)

/-! ### Faults -/

/-- R82: E_SEQ is raised in exactly the five cases (a) to (e). Premise: R26 item 2, which bounds IDX by CW(LEN). -/
def Obligations.SequenceFaultsExactly : Prop :=
  ∀ (i : Instr) (s : State), s.LoadInv → s.phase ≠ .fault →
    (exec i s = .next { s with phase := .fault, ecode := .seq } ↔
      match i with
      | .buflen _ => False
      | .start _ => s.phase = .load
      | .push _ => s.phase = .idle ∨ s.phase = .done ∨ (s.phase = .load ∧ s.idx = copyWords s.len)
      | .finish => s.phase = .idle ∨ s.phase = .done ∨ (s.phase = .load ∧ s.idx < copyWords s.len))

/-- R83: E_CAP is raised exactly by START in phase IDLE or DONE with a length that needs too many words. -/
def Obligations.CapacityFaultsExactly : Prop :=
  ∀ (i : Instr) (s : State), s.phase ≠ .fault →
    (exec i s = .next { s with phase := .fault, ecode := .cap } ↔
      ∃ n, i = .start n ∧ (s.phase = .idle ∨ s.phase = .done) ∧ s.cfg.bufWords < n.toNat / 32 + 1)

/-- R88: the order of the checks, for every word: discard in FAULT, then E_ENC, then E_SEQ, then E_CAP. -/
def Obligations.FaultsInPriorityOrder : Prop :=
  ∀ (c : CmdWord) (s : State), s.LoadInv →
    (s.phase = .fault → step (s.present c) = .next s) ∧
    (s.phase ≠ .fault → (∃ e, decode c = .error e) →
      step (s.present c) = .next { s with phase := .fault, ecode := .enc }) ∧
    (s.phase ≠ .fault → ∀ i, decode c = .ok i → s.OutOfSequence i →
      step (s.present c) = .next { s with phase := .fault, ecode := .seq }) ∧
    (s.phase ≠ .fault → ∀ n, decode c = .ok (.start n) → ¬ s.OutOfSequence (.start n) →
      s.cfg.bufWords < n.toNat / 32 + 1 →
      step (s.present c) = .next { s with phase := .fault, ecode := .cap })

/-- R84, R89: a step that enters FAULT writes PHASE and ECODE and nothing else of the engine (the input it consumed
aside). -/
def Obligations.FaultsArePrecise : Prop :=
  ∀ s t : State, step s = .next t → s.phase ≠ .fault → t.phase = .fault →
    ∃ code : Ecode, code ≠ .none ∧ t = { s with phase := .fault, ecode := code, edges := s.edges.tail }

/-- R85: in phase FAULT every accepted word, legal or ILLEGAL, is discarded, however many come. -/
def Obligations.FaultPhaseDiscardsEveryWord : Prop :=
  ∀ (s : State) (cs : List CmdWord), s.phase = .fault → s.runWords cs = .next s ∧ s.cmdReady = true

/-- R20: the codes of PHASE, and its transitions: exactly those of the rule. -/
def Obligations.PhaseMovesOnlyAsListed : Prop :=
  (Phase.idle.code = 0 ∧ Phase.load.code = 1 ∧ Phase.done.code = 2 ∧ Phase.fault.code = 3) ∧
  ∀ s t : State, step s = .next t →
    t.phase = s.phase ∨
    ((s.phase = .idle ∨ s.phase = .done) ∧ t.phase = .load ∧ ∃ n, s.Accepts (.start n)) ∨
    (s.phase = .load ∧ t.phase = .done ∧ s.Accepts .finish) ∨
    (s.phase ≠ .fault ∧ t.phase = .fault ∧ t.ecode ≠ .none) ∨
    (t.phase = .idle ∧ s.Resets)

/-! ### Ports, reset, steps -/

/-- Sections 4 and 5 of 10_state.md: the codes of PHASE and ECODE (R20, R21, R80), the output ports and the STATUS word. -/
def Obligations.OutputPortsAndStatus : Prop :=
  (Phase.idle.code = 0 ∧ Phase.load.code = 1 ∧ Phase.done.code = 2 ∧ Phase.fault.code = 3) ∧
  (Ecode.none.code = 0 ∧ Ecode.enc.code = 1 ∧ Ecode.seq.code = 2 ∧ Ecode.cap.code = 3) ∧
  ∀ s : State,
    s.ports.countO = s.acc ∧ s.ports.blenO = s.blen ∧ s.ports.phaseO = s.phase.code ∧ s.ports.ecodeO = s.ecode.code ∧
    s.ports.cmdReady = true ∧ s.status.toNat = 4 * s.ecode.code.toNat + s.phase.code.toNat ∧
    (s.countResult = some s.acc ↔ s.phase = .done)

/-- R104 (derived there): under the invariant `count_o` reads 0 in phases IDLE and LOAD and is at most LEN in DONE. -/
def Obligations.CountPortByPhase : Prop :=
  ∀ s : State, s.Inv →
    (s.phase = .idle ∨ s.phase = .load → s.ports.countO = 0 ∧ s.countResult = none) ∧
    (s.phase = .done → s.ports.countO.toNat ≤ s.len.toNat ∧ s.countResult = some s.ports.countO)

/-- R96: a reset edge gives the reset values from every state, whatever command is presented with it; nothing else leaves
phase FAULT. (BUF is unspecified after it, so nothing is said of it here.) -/
def Obligations.ResetEdgeGivesTheResetState : Prop :=
  (∀ (s : State) (e : PortEdge) (rest : List PortEdge), s.edges = e :: rest → e.rst = true →
    ∃ t, step s = .next t ∧ t.phase = .idle ∧ t.ecode = .none ∧ t.len = 0 ∧ t.wc = 0 ∧ t.idx = 0 ∧ t.acc = 0 ∧
      t.blen = 0 ∧ t.cfg = s.cfg ∧ t.edges = rest ∧
      t.ports.countO = 0 ∧ t.ports.blenO = 0 ∧ t.ports.phaseO = 0 ∧ t.ports.ecodeO = 0) ∧
  (∀ s t : State, s.phase = .fault → step s = .next t → t.phase ≠ .fault → s.Resets)

/-- The model's form of "every word of BUF unspecified" (log 4, log 8): after a reset edge every word is the free value of a
new draw. Nothing is known of that value. No rule of the spec; the model's choice. -/
def Obligations.ResetEdgeRedrawsTheBuffer : Prop :=
  ∀ (s : State) (e : PortEdge) (rest : List PortEdge), s.edges = e :: rest → e.rst = true →
    ∃ t, step s = .next t ∧ t.draws = s.draws + 1 ∧ ∀ i, t.word i = Config.resetWord t.draws i

/-- The registers of `State.reset` have the values of section 9 of 10_state.md. -/
def Obligations.ResetStateRegisters : Prop :=
  State.reset.len = 0 ∧ State.reset.wc = 0 ∧ State.reset.idx = 0 ∧ State.reset.acc = 0 ∧ State.reset.blen = 0 ∧
  State.reset.phase.code = 0 ∧ State.reset.ecode.code = 0

/-- A step runs the decoded command: when the next edge presents a word that decodes to `i` (R23), the step is exec of
`i` on the state with that edge consumed; and so for a table word placed by `State.withFetchWord`. The second
clause, with `decodeTableWord` and `State.withFetchWord`, is the model's choice (log 11, log 12), no rule of the spec. -/
def Obligations.StepRunsTheDecodedCommand : Prop :=
  (∀ (s : State) (e : PortEdge) (rest : List PortEdge) (i : Instr), s.edges = e :: rest → e.rst = false →
    e.cmdValid = true → decode e.cmd = .ok i → step s = exec i { s with edges := rest }) ∧
  (∀ (s : State) (nbits w : Nat) (i : Instr), decodeTableWord nbits w = some i →
    step (s.withFetchWord nbits w) = exec i s)

/-! ### Invariants and the operation as a whole -/

/-- Section 8 of 10_state.md: the invariants hold after reset, whatever valid capacity the instance has and
whatever BUF then holds. -/
def Obligations.ResetMeetsTheInvariant : Prop :=
  State.reset.Inv ∧ ∀ (c : Config) (d : Nat), c.Valid → { State.reset with cfg := c, draws := d }.Inv

/-- Section 8 of 10_state.md: every step keeps the invariants. The range of the capacity and the form of BUF among them are
the model's (log 1, log 5). -/
def Obligations.StepKeepsTheInvariant : Prop :=
  ∀ s t : State, s.Inv → step s = .next t → t.Inv

/-- Section 4 of 70_reset_and_hazards.md: no command hangs; a step always completes, and the engine is ready again.
No step is ever refused, in any state. -/
def Obligations.EveryStepCompletes : Prop :=
  (∀ s : State, s.Inv → ∃ t, step s = .next t ∧ t.ports.cmdReady = true) ∧
  (∀ (s : State) (r : Refusal), step s ≠ .refused r)

/-- Every step keeps BUF in canonical form inside the address space of R28, and keeps the parameter, without the rest of
the invariant. -/
def Obligations.StepKeepsBufferForm : Prop :=
  ∀ s t : State, s.BufInv → step s = .next t → t.BufInv ∧ t.cfg = s.cfg

/-- Section 5 of 43_cardinality.md, adequacy (derived there): the canonical sequence for `(N, w)` ends in phase DONE
with the function layer's CardW in ACC and on `count_o`, and with BUF, LEN, WC, IDX and BLEN as stated. -/
def Obligations.CanonicalSequenceComputesCardW : Prop :=
  ∀ (s : State) (n : Word) (ws : List Word), s.Ready n → s.FaultInv → ws.length = (n.toNat + 31) / 32 →
    ∃ t, s.runWords ((canonical n ws).map encode) = .next t ∧
      t = { s with len := n, wc := t.wc, idx := t.wc, acc := cardW n ws, phase := .done, buf := t.buf } ∧
      t.ecode = .none ∧ t.wc.toNat = n.toNat / 32 + 1 ∧ t.ports.countO = cardW n ws ∧
      (∀ j, j + 1 < t.wc.toNat → some (t.word j) = ws[j]?) ∧
      (n.toNat % 32 ≠ 0 →
        t.word (t.wc.toNat - 1) = ws.getD (t.wc.toNat - 1) 0 &&& tmask (BitVec.ofNat 32 (n.toNat % 32))) ∧
      (n.toNat % 32 = 0 → t.word (t.wc.toNat - 1) = 0) ∧
      (∀ j, t.wc.toNat ≤ j → t.word j = s.word j)

/-- Section 5 of 43_cardinality.md (derived there): BUFLEN commands interleaved anywhere leave the result as it is. -/
def Obligations.InterleavedBuflenChangesNoResult : Prop :=
  ∀ (s : State) (n : Word) (ws : List Word) (cs : List CmdWord), s.Ready n → s.FaultInv →
    ws.length = (n.toNat + 31) / 32 → (cs.map decode).filter notBuflen = (canonical n ws).map .ok →
    ∃ t u, s.runWords cs = .next t ∧ s.runWords ((canonical n ws).map encode) = .next u ∧
      u.phase = .done ∧ t = { u with blen := t.blen }

/-- Section 5 of 43_cardinality.md (derived there): the canonical sequence is the only fault-free way from IDLE to DONE.
Whatever words brought the engine there, BUFLEN aside the last of them are a canonical sequence, and ACC is its CardW. -/
def Obligations.DoneIsReachedOnlyCanonically : Prop :=
  ∀ (s t : State) (cs : List CmdWord), s.Inv → s.phase = .idle → s.runWords cs = .next t → t.phase = .done →
    ∃ (before : List (Except DecodeError Instr)) (n : Word) (ws : List Word),
      (cs.map decode).filter notBuflen = before ++ (canonical n ws).map .ok ∧
      ws.length = (n.toNat + 31) / 32 ∧ n.toNat / 32 + 1 ≤ s.cfg.bufWords ∧ t.len = n ∧ t.acc = cardW n ws

/-- Section 5 of 43_cardinality.md, the guarantees (a) to (d) on `count_o` (derived there). -/
def Obligations.GuaranteesOfTheCount : Prop :=
  ∀ (s : State) (n : Word) (ws : List Word), s.Ready n → s.FaultInv → ws.length = (n.toNat + 31) / 32 →
    ∃ t, s.runWords ((canonical n ws).map encode) = .next t ∧ t.phase = .done ∧
      t.ports.countO.toNat ≤ n.toNat ∧
      ((∀ i < n.toNat, vectorBit ws i = false) → t.ports.countO = 0) ∧
      ((∀ i < n.toNat, vectorBit ws i = true) → t.ports.countO = n) ∧
      (∀ vs : List Word, vs.length = ws.length → (∀ i < n.toNat, vectorBit vs i = vectorBit ws i) →
        ∃ u, s.runWords ((canonical n vs).map encode) = .next u ∧ u.ports.countO = t.ports.countO)

/-- Sections 5 and 6 of 30_encoding.md and 43_cardinality.md: a bit vector written as `card.bits` and run from any ready
state gives its Cardinality on `count_o`; and so do its packed words with arbitrary stray bits. -/
def Obligations.CardBitsCountsTheVector : Prop :=
  ∀ (s : State) (v : List Bool), v.length < 2 ^ 32 → s.Ready (BitVec.ofNat 32 v.length) → s.FaultInv →
    (∃ cs t, assembleLine (.cardBits v) = some cs ∧ s.runWords cs = .next t ∧ t.phase = .done ∧
      t.ports.countO.toNat = cardinality v) ∧
    (∀ ws : List Word, ws.length = (v.length + 31) / 32 → (∀ i < v.length, vectorBit ws i = v.getD i false) →
      ∃ t, s.runWords ((canonical (BitVec.ofNat 32 v.length) ws).map encode) = .next t ∧ t.phase = .done ∧
        t.ports.countO.toNat = cardinality v)

/-- Sections 6 of 10_state.md and 5 of 43_cardinality.md (derived there): no output depends on the reset content of BUF
or on words an earlier operation left. A step keeps states alike that differ only in such words and in the draw of the
reset content, and their ports agree. -/
def Obligations.StaleBufferIsNeverObserved : Prop :=
  ∀ s s' t : State, s.Inv → s.SameButStaleBuf s' → step s = .next t →
    ∃ t', step s' = .next t' ∧ t.SameButStaleBuf t' ∧ t'.ports = t.ports

/-! ### The assembler -/

/-- R49: `card` expands to the canonical sequence, and is rejected when the number of operands is not CW(N). -/
def Obligations.CardExpandsToTheCanonicalSequence : Prop :=
  ∀ (n : Nat) (ws : List Nat), n < 2 ^ 32 → (∀ w ∈ ws, w < 2 ^ 32) →
    (ws.length = (n + 31) / 32 → ∃ cs, assembleLine (.card n ws) = some cs ∧
      cs.map decode =
        (Instr.start (BitVec.ofNat 32 n) :: ((ws.map fun w => Instr.push (BitVec.ofNat 32 w)) ++ [Instr.finish])).map .ok) ∧
    (ws.length ≠ (n + 31) / 32 → assembleLine (.card n ws) = none)

/-- R50: `card.bits` reads the characters in index order and expands to `card N, Pack(v)`. -/
def Obligations.CardBitsReadsIndexZeroFirst : Prop :=
  ∀ v : List Bool, v.length < 2 ^ 32 →
    parseLine ("card.bits ".toList ++ v.map fun b => if b then '1' else '0') = some (some (.cardBits v)) ∧
    assembleLine (.cardBits v) = assembleLine (.card v.length ((pack v).map BitVec.toNat))

/-! ### Idle edges -/

/-- R13, R23, R95: an edge with neither reset nor command executes nothing. That the engine is idle too when no input is
left is the model's choice (log 2), no rule of the spec. -/
def Obligations.IdleEdgeExecutesNothing : Prop :=
  ∀ s : State, (∀ e ∈ s.edges.head?, e.rst = false ∧ e.cmdValid = false) →
    step s = .next { s with edges := s.edges.tail }
end

