-- ==== Sys2Proof/Laws/Decode.lean ====
section
/-! SUPPORT. Fields and words: the two conversions undo each other; every command is well formed. -/

namespace Sys2Proof

theorem Instr.wellFormed_all (i : Instr) : i.wellFormed = true := by cases i <;> rfl

theorem Fields.wellFormed_iff (f : Fields) : f.wellFormed = true ↔ (f.op = opFinish → f.arg = 0) := by
  simp [Fields.wellFormed, imp_iff_not_or]

theorem fieldsOf_op_toNat (c : CmdWord) : (fieldsOf c).op.toNat = c.toNat / 2 ^ 32 := by
  have h : (fieldsOf c).op.toNat = c.toNat / 2 ^ 32 % 2 ^ 2 := by
    simp [fieldsOf, BitVec.extractLsb'_toNat, Nat.shiftRight_eq_div_pow]
  rw [h]
  have := c.isLt
  omega

theorem fieldsOf_arg_toNat (c : CmdWord) : (fieldsOf c).arg.toNat = c.toNat % 2 ^ 32 := by
  simp [fieldsOf, BitVec.extractLsb'_toNat]

theorem ofFields_toNat (f : Fields) : (ofFields f).toNat = f.op.toNat * 2 ^ 32 + f.arg.toNat := by
  have h := f.arg.isLt
  simp only [ofFields, BitVec.toNat_append]
  rw [← Nat.shiftLeft_add_eq_or_of_lt h, Nat.shiftLeft_eq]

theorem fieldsOf_ofFields (f : Fields) : fieldsOf (ofFields f) = f := by
  have h1 := fieldsOf_op_toNat (ofFields f)
  have h2 := fieldsOf_arg_toNat (ofFields f)
  rw [ofFields_toNat] at h1 h2
  have ha := f.arg.isLt
  have e1 : (fieldsOf (ofFields f)).op = f.op := BitVec.eq_of_toNat_eq (by omega)
  have e2 : (fieldsOf (ofFields f)).arg = f.arg := BitVec.eq_of_toNat_eq (by omega)
  rcases hf : fieldsOf (ofFields f) with ⟨o, a⟩
  rw [hf] at e1 e2
  simp only at e1 e2
  rw [e1, e2]

theorem ofFields_fieldsOf (c : CmdWord) : ofFields (fieldsOf c) = c := by
  apply BitVec.eq_of_toNat_eq
  rw [ofFields_toNat, fieldsOf_op_toNat, fieldsOf_arg_toNat]
  omega

/-- What the decoder answers, by the opcode: the one inversion lemma of `decodeFields`. -/
theorem decodeFields_cases (f : Fields) :
    (∃ i : Instr, i.fields = f ∧ decodeFields f = .ok i) ∨
      (f.op = opFinish ∧ f.arg ≠ 0 ∧ decodeFields f = .error (.finishArgNotZero f.arg)) := by
  obtain ⟨o, a⟩ := f
  have ho : o = 0 ∨ o = 1 ∨ o = 2 ∨ o = 3 := by revert o; decide
  rcases ho with rfl | rfl | rfl | rfl
  · exact .inl ⟨.buflen a, rfl, rfl⟩
  · exact .inl ⟨.start a, rfl, rfl⟩
  · exact .inl ⟨.push a, rfl, rfl⟩
  · by_cases h : a = 0
    · subst h; exact .inl ⟨.finish, rfl, rfl⟩
    · exact .inr ⟨rfl, h, by simpa [decodeFields] using h⟩

end Sys2Proof
end

