-- ==== Sys2Proof/Laws/State.lean ====
section
/-! SUPPORT. One lemma per field per update of State, true by rfl. -/

namespace Sys2Proof.Machine

@[simp] theorem State.setBuf_len (s : State) (m : Memory) : (s.setBuf m).len = s.len := rfl
@[simp] theorem State.setBuf_wc (s : State) (m : Memory) : (s.setBuf m).wc = s.wc := rfl
@[simp] theorem State.setBuf_idx (s : State) (m : Memory) : (s.setBuf m).idx = s.idx := rfl
@[simp] theorem State.setBuf_acc (s : State) (m : Memory) : (s.setBuf m).acc = s.acc := rfl
@[simp] theorem State.setBuf_blen (s : State) (m : Memory) : (s.setBuf m).blen = s.blen := rfl
@[simp] theorem State.setBuf_phase (s : State) (m : Memory) : (s.setBuf m).phase = s.phase := rfl
@[simp] theorem State.setBuf_ecode (s : State) (m : Memory) : (s.setBuf m).ecode = s.ecode := rfl
@[simp] theorem State.setBuf_buf (s : State) (m : Memory) : (s.setBuf m).buf = m := rfl
@[simp] theorem State.setBuf_draws (s : State) (m : Memory) : (s.setBuf m).draws = s.draws := rfl
@[simp] theorem State.setBuf_cfg (s : State) (m : Memory) : (s.setBuf m).cfg = s.cfg := rfl
@[simp] theorem State.setBuf_edges (s : State) (m : Memory) : (s.setBuf m).edges = s.edges := rfl

@[simp] theorem State.setBlen_len (s : State) (v : Word) : (s.setBlen v).len = s.len := rfl
@[simp] theorem State.setBlen_wc (s : State) (v : Word) : (s.setBlen v).wc = s.wc := rfl
@[simp] theorem State.setBlen_idx (s : State) (v : Word) : (s.setBlen v).idx = s.idx := rfl
@[simp] theorem State.setBlen_acc (s : State) (v : Word) : (s.setBlen v).acc = s.acc := rfl
@[simp] theorem State.setBlen_blen (s : State) (v : Word) : (s.setBlen v).blen = v := rfl
@[simp] theorem State.setBlen_phase (s : State) (v : Word) : (s.setBlen v).phase = s.phase := rfl
@[simp] theorem State.setBlen_ecode (s : State) (v : Word) : (s.setBlen v).ecode = s.ecode := rfl
@[simp] theorem State.setBlen_buf (s : State) (v : Word) : (s.setBlen v).buf = s.buf := rfl
@[simp] theorem State.setBlen_draws (s : State) (v : Word) : (s.setBlen v).draws = s.draws := rfl
@[simp] theorem State.setBlen_word (s : State) (v : Word) (i : Nat) : (s.setBlen v).word i = s.word i := rfl
@[simp] theorem State.setBlen_cfg (s : State) (v : Word) : (s.setBlen v).cfg = s.cfg := rfl
@[simp] theorem State.setBlen_edges (s : State) (v : Word) : (s.setBlen v).edges = s.edges := rfl

@[simp] theorem State.setEdges_len (s : State) (es : List PortEdge) : (s.setEdges es).len = s.len := rfl
@[simp] theorem State.setEdges_wc (s : State) (es : List PortEdge) : (s.setEdges es).wc = s.wc := rfl
@[simp] theorem State.setEdges_idx (s : State) (es : List PortEdge) : (s.setEdges es).idx = s.idx := rfl
@[simp] theorem State.setEdges_acc (s : State) (es : List PortEdge) : (s.setEdges es).acc = s.acc := rfl
@[simp] theorem State.setEdges_blen (s : State) (es : List PortEdge) : (s.setEdges es).blen = s.blen := rfl
@[simp] theorem State.setEdges_phase (s : State) (es : List PortEdge) : (s.setEdges es).phase = s.phase := rfl
@[simp] theorem State.setEdges_ecode (s : State) (es : List PortEdge) : (s.setEdges es).ecode = s.ecode := rfl
@[simp] theorem State.setEdges_buf (s : State) (es : List PortEdge) : (s.setEdges es).buf = s.buf := rfl
@[simp] theorem State.setEdges_draws (s : State) (es : List PortEdge) : (s.setEdges es).draws = s.draws := rfl
@[simp] theorem State.setEdges_word (s : State) (es : List PortEdge) (i : Nat) : (s.setEdges es).word i = s.word i := rfl
@[simp] theorem State.setEdges_cfg (s : State) (es : List PortEdge) : (s.setEdges es).cfg = s.cfg := rfl
@[simp] theorem State.setEdges_edges (s : State) (es : List PortEdge) : (s.setEdges es).edges = es := rfl

@[simp] theorem State.raise_len (s : State) (c : Ecode) : (s.raise c).len = s.len := rfl
@[simp] theorem State.raise_wc (s : State) (c : Ecode) : (s.raise c).wc = s.wc := rfl
@[simp] theorem State.raise_idx (s : State) (c : Ecode) : (s.raise c).idx = s.idx := rfl
@[simp] theorem State.raise_acc (s : State) (c : Ecode) : (s.raise c).acc = s.acc := rfl
@[simp] theorem State.raise_blen (s : State) (c : Ecode) : (s.raise c).blen = s.blen := rfl
@[simp] theorem State.raise_phase (s : State) (c : Ecode) : (s.raise c).phase = .fault := rfl
@[simp] theorem State.raise_ecode (s : State) (c : Ecode) : (s.raise c).ecode = c := rfl
@[simp] theorem State.raise_buf (s : State) (c : Ecode) : (s.raise c).buf = s.buf := rfl
@[simp] theorem State.raise_draws (s : State) (c : Ecode) : (s.raise c).draws = s.draws := rfl
@[simp] theorem State.raise_word (s : State) (c : Ecode) (i : Nat) : (s.raise c).word i = s.word i := rfl
@[simp] theorem State.raise_cfg (s : State) (c : Ecode) : (s.raise c).cfg = s.cfg := rfl
@[simp] theorem State.raise_edges (s : State) (c : Ecode) : (s.raise c).edges = s.edges := rfl

@[simp] theorem State.openOperation_len (s : State) (n : Word) : (s.openOperation n).len = n := rfl
@[simp] theorem State.openOperation_wc (s : State) (n : Word) : (s.openOperation n).wc = bufferLength n := rfl
@[simp] theorem State.openOperation_idx (s : State) (n : Word) : (s.openOperation n).idx = 0 := rfl
@[simp] theorem State.openOperation_acc (s : State) (n : Word) : (s.openOperation n).acc = 0 := rfl
@[simp] theorem State.openOperation_blen (s : State) (n : Word) : (s.openOperation n).blen = s.blen := rfl
@[simp] theorem State.openOperation_phase (s : State) (n : Word) : (s.openOperation n).phase = .load := rfl
@[simp] theorem State.openOperation_ecode (s : State) (n : Word) : (s.openOperation n).ecode = s.ecode := rfl
@[simp] theorem State.openOperation_buf (s : State) (n : Word) : (s.openOperation n).buf = s.buf := rfl
@[simp] theorem State.openOperation_draws (s : State) (n : Word) : (s.openOperation n).draws = s.draws := rfl
@[simp] theorem State.openOperation_word (s : State) (n : Word) (i : Nat) : (s.openOperation n).word i = s.word i := rfl
@[simp] theorem State.openOperation_cfg (s : State) (n : Word) : (s.openOperation n).cfg = s.cfg := rfl
@[simp] theorem State.openOperation_edges (s : State) (n : Word) : (s.openOperation n).edges = s.edges := rfl

@[simp] theorem State.advanceIndex_len (s : State) : (s.advanceIndex).len = s.len := rfl
@[simp] theorem State.advanceIndex_wc (s : State) : (s.advanceIndex).wc = s.wc := rfl
@[simp] theorem State.advanceIndex_idx (s : State) : (s.advanceIndex).idx = s.idx + 1 := rfl
@[simp] theorem State.advanceIndex_acc (s : State) : (s.advanceIndex).acc = s.acc := rfl
@[simp] theorem State.advanceIndex_blen (s : State) : (s.advanceIndex).blen = s.blen := rfl
@[simp] theorem State.advanceIndex_phase (s : State) : (s.advanceIndex).phase = s.phase := rfl
@[simp] theorem State.advanceIndex_ecode (s : State) : (s.advanceIndex).ecode = s.ecode := rfl
@[simp] theorem State.advanceIndex_buf (s : State) : (s.advanceIndex).buf = s.buf := rfl
@[simp] theorem State.advanceIndex_draws (s : State) : (s.advanceIndex).draws = s.draws := rfl
@[simp] theorem State.advanceIndex_word (s : State) (i : Nat) : (s.advanceIndex).word i = s.word i := rfl
@[simp] theorem State.advanceIndex_cfg (s : State) : (s.advanceIndex).cfg = s.cfg := rfl
@[simp] theorem State.advanceIndex_edges (s : State) : (s.advanceIndex).edges = s.edges := rfl

@[simp] theorem State.closeOperation_len (s : State) (a : Word) : (s.closeOperation a).len = s.len := rfl
@[simp] theorem State.closeOperation_wc (s : State) (a : Word) : (s.closeOperation a).wc = s.wc := rfl
@[simp] theorem State.closeOperation_idx (s : State) (a : Word) : (s.closeOperation a).idx = s.wc := rfl
@[simp] theorem State.closeOperation_acc (s : State) (a : Word) : (s.closeOperation a).acc = a := rfl
@[simp] theorem State.closeOperation_blen (s : State) (a : Word) : (s.closeOperation a).blen = s.blen := rfl
@[simp] theorem State.closeOperation_phase (s : State) (a : Word) : (s.closeOperation a).phase = .done := rfl
@[simp] theorem State.closeOperation_ecode (s : State) (a : Word) : (s.closeOperation a).ecode = s.ecode := rfl
@[simp] theorem State.closeOperation_buf (s : State) (a : Word) : (s.closeOperation a).buf = s.buf := rfl
@[simp] theorem State.closeOperation_draws (s : State) (a : Word) : (s.closeOperation a).draws = s.draws := rfl
@[simp] theorem State.closeOperation_word (s : State) (a : Word) (i : Nat) : (s.closeOperation a).word i = s.word i := rfl
@[simp] theorem State.closeOperation_cfg (s : State) (a : Word) : (s.closeOperation a).cfg = s.cfg := rfl
@[simp] theorem State.closeOperation_edges (s : State) (a : Word) : (s.closeOperation a).edges = s.edges := rfl

@[simp] theorem State.resetEdge_len (s : State) : (s.resetEdge).len = 0 := rfl
@[simp] theorem State.resetEdge_wc (s : State) : (s.resetEdge).wc = 0 := rfl
@[simp] theorem State.resetEdge_idx (s : State) : (s.resetEdge).idx = 0 := rfl
@[simp] theorem State.resetEdge_acc (s : State) : (s.resetEdge).acc = 0 := rfl
@[simp] theorem State.resetEdge_blen (s : State) : (s.resetEdge).blen = 0 := rfl
@[simp] theorem State.resetEdge_phase (s : State) : (s.resetEdge).phase = .idle := rfl
@[simp] theorem State.resetEdge_ecode (s : State) : (s.resetEdge).ecode = .none := rfl
@[simp] theorem State.resetEdge_buf (s : State) : (s.resetEdge).buf = [] := rfl
@[simp] theorem State.resetEdge_draws (s : State) : (s.resetEdge).draws = s.draws + 1 := rfl
@[simp] theorem State.resetEdge_word (s : State) (i : Nat) : (s.resetEdge).word i = Config.resetWord (s.draws + 1) i := rfl
@[simp] theorem State.resetEdge_cfg (s : State) : (s.resetEdge).cfg = s.cfg := rfl
@[simp] theorem State.resetEdge_edges (s : State) : (s.resetEdge).edges = s.edges := rfl

end Sys2Proof.Machine
end

