-- ==== Sys2Proof/Laws/Memory.lean ====
section
/-! SUPPORT. BUF as data: read after write, the canonical form, extensionality. -/

namespace Sys2Proof.Machine

@[simp] theorem Memory.read_nil (i : Nat) : Memory.read [] i = none := rfl

@[simp] theorem Memory.read_write_same (m : Memory) (i : Nat) (w : Word) : Memory.read (Memory.write m i w) i = some w := by
  induction m with
  | nil => simp [Memory.write, Memory.read]
  | cons c m ih =>
    simp only [Memory.write]
    split
    · simp [Memory.read]
    · split
      · simp [Memory.read]
      · next h => simp [Memory.read, h, ih]

theorem Memory.read_write_other (m : Memory) {i j : Nat} (w : Word) (h : j ≠ i) :
    Memory.read (Memory.write m i w) j = Memory.read m j := by
  induction m with
  | nil => simp [Memory.write, Memory.read, h]
  | cons c m ih =>
    simp only [Memory.write]
    split
    · simp [Memory.read, h]
    · split
      · next hk => subst hk; simp [Memory.read, h]
      · simp only [Memory.read, ih]

theorem Memory.read_write (m : Memory) (i j : Nat) (w : Word) :
    Memory.read (Memory.write m i w) j = if j = i then some w else Memory.read m j := by
  split
  · next h => subst h; exact read_write_same m j w
  · next h => exact read_write_other m w h

theorem Memory.mem_write {m : Memory} {i : Nat} {w : Word} {c : Nat × Word} (h : c ∈ Memory.write m i w) :
    c = (i, w) ∨ c ∈ m := by
  induction m with
  | nil => simpa [Memory.write] using h
  | cons d m ih =>
    simp only [Memory.write] at h
    split at h
    · simpa using h
    · split at h
      · rcases List.mem_cons.1 h with h | h
        · exact .inl h
        · exact .inr (List.mem_cons_of_mem _ h)
      · rcases List.mem_cons.1 h with h | h
        · exact .inr (h ▸ List.mem_cons_self)
        · exact (ih h).imp id (List.mem_cons_of_mem _)

theorem Memory.write_wf {m : Memory} (h : Memory.wf m) (i : Nat) (w : Word) : Memory.wf (Memory.write m i w) := by
  induction m with
  | nil => simp [Memory.write]
  | cons d m ih =>
    obtain ⟨hd, hm⟩ := List.pairwise_cons.1 h
    simp only [Memory.write]
    split
    · next hlt =>
      refine List.pairwise_cons.2 ⟨fun c hc => ?_, h⟩
      rcases List.mem_cons.1 hc with rfl | hc
      · exact hlt
      · exact hlt.trans (hd c hc)
    · next hle =>
      split
      · next heq => exact List.pairwise_cons.2 ⟨fun c hc => heq ▸ hd c hc, hm⟩
      · next hne =>
        refine List.pairwise_cons.2 ⟨fun c hc => ?_, ih hm⟩
        rcases Memory.mem_write hc with rfl | hc
        · show d.1 < i; omega
        · exact hd c hc

/-- Listed indices stay below a bound. -/
theorem Memory.write_lt {m : Memory} {b i : Nat} (h : ∀ c ∈ m, c.1 < b) (hi : i < b) (w : Word) :
    ∀ c ∈ Memory.write m i w, c.1 < b := fun _ hc =>
  (Memory.mem_write hc).elim (fun e => e ▸ hi) (h _)

theorem Memory.read_none_of_lt {m : Memory} {i : Nat} (h : ∀ c ∈ m, i < c.1) : Memory.read m i = none := by
  induction m with
  | nil => rfl
  | cons c m ih =>
    have := h c List.mem_cons_self
    simp only [Memory.read, if_neg (by omega : i ≠ c.1)]
    exact ih fun d hd => h d (List.mem_cons_of_mem _ hd)

/-- Equal contents are equal data: two canonical memories that read alike are the same list. -/
theorem Memory.ext_of_read : ∀ {m m' : Memory}, Memory.wf m → Memory.wf m' →
    (∀ i, Memory.read m i = Memory.read m' i) → m = m'
  | [], [], _, _, _ => rfl
  | [], c :: m', _, _, h => absurd (h c.1) (by simp [Memory.read])
  | c :: m, [], _, _, h => absurd (h c.1) (by simp [Memory.read])
  | c :: m, d :: m', hm, hm', h => by
    obtain ⟨hc, hm⟩ := List.pairwise_cons.1 hm
    obtain ⟨hd, hm'⟩ := List.pairwise_cons.1 hm'
    have key : c.1 = d.1 := by
      rcases Nat.lt_trichotomy c.1 d.1 with hlt | heq | hlt
      · have h1 := h c.1
        rw [Memory.read_none_of_lt (m := d :: m') (fun e he => (List.mem_cons.1 he).elim (fun q => q ▸ hlt)
          fun q => hlt.trans (hd e q))] at h1
        simp [Memory.read] at h1
      · exact heq
      · have h1 := h d.1
        rw [Memory.read_none_of_lt (m := c :: m) (fun e he => (List.mem_cons.1 he).elim (fun q => q ▸ hlt)
          fun q => hlt.trans (hc e q))] at h1
        simp [Memory.read] at h1
    have hv : c.2 = d.2 := by simpa [Memory.read, key] using h c.1
    have ht : m = m' := Memory.ext_of_read hm hm' fun i => by
      by_cases hi : i = c.1
      · rw [hi, Memory.read_none_of_lt hc, key, Memory.read_none_of_lt hd]
      · simpa [Memory.read, hi, key ▸ hi] using h i
    rw [Prod.ext key hv, ht]

end Sys2Proof.Machine
end

