-- ==== Sys2Proof/Laws/Ops.lean ====
section
/-! SUPPORT. What each shared operation can do, said once. -/

namespace Sys2Proof.Machine

/-- Read after write. -/
theorem State.word_write (s : State) (i j : Nat) (v : Word) :
    (s.setBuf (s.buf.write i v)).word j = if j = i then v else s.word j := by
  rw [State.word, State.setBuf_buf, Memory.read_write]
  split <;> rfl

@[simp] theorem State.word_write_same (s : State) (i : Nat) (v : Word) : (s.setBuf (s.buf.write i v)).word i = v := by
  simp [State.word_write]

theorem State.word_write_other (s : State) {i j : Nat} (v : Word) (h : j ≠ i) :
    (s.setBuf (s.buf.write i v)).word j = s.word j := by simp [State.word_write, h]

theorem State.memRead_of_lt {s : State} {i : Nat} (h : i < s.cfg.bufWords) : s.memRead i = .ok (s.word i) := by
  simp [State.memRead, h]

theorem State.memRead_eq_ok {s : State} {i : Nat} {w : Word} :
    s.memRead i = .ok w ↔ i < s.cfg.bufWords ∧ w = s.word i := by
  simp only [State.memRead]
  split
  · next h => simp [h, eq_comm]
  · next h => simp [h]

theorem State.memWrite_of_lt {s : State} {i : Nat} (h : i < s.cfg.bufWords) (w : Word) :
    s.memWrite i w = .ok (s.setBuf (s.buf.write i w)) := by simp [State.memWrite, h]

theorem State.memWrite_eq_ok {s t : State} {i : Nat} {w : Word} :
    s.memWrite i w = .ok t ↔ i < s.cfg.bufWords ∧ t = s.setBuf (s.buf.write i w) := by
  simp only [State.memWrite]
  split
  · next h => simp [h, eq_comm]
  · next h => simp [h]

/-- BUF after writing 0 to the indices `0 .. k-1`. -/
def Memory.zeroed (m : Memory) : Nat → Memory
  | 0 => m
  | k + 1 => Memory.write (Memory.zeroed m k) k 0

theorem Memory.read_zeroed (m : Memory) (k i : Nat) :
    Memory.read (Memory.zeroed m k) i = if i < k then some 0 else Memory.read m i := by
  induction k with
  | zero => simp [Memory.zeroed]
  | succ k ih =>
    rw [Memory.zeroed, Memory.read_write, ih]
    split
    · next h => simp [h]
    · next h => simp only [show (i < k + 1) ↔ (i < k) by omega]

theorem Memory.zeroed_wf {m : Memory} (h : Memory.wf m) (k : Nat) : Memory.wf (Memory.zeroed m k) := by
  induction k with
  | zero => exact h
  | succ k ih => exact Memory.write_wf ih k 0

theorem Memory.zeroed_lt {m : Memory} {b : Nat} (h : ∀ c ∈ m, c.1 < b) {k : Nat} (hk : k ≤ b) :
    ∀ c ∈ Memory.zeroed m k, c.1 < b := by
  induction k with
  | zero => exact h
  | succ k ih => exact Memory.write_lt (ih (by omega)) (by omega) 0

/-- The zero fill of START, inside the address space, completes and writes zeros and nothing else. -/
theorem State.zeroFill_eq (s : State) {k : Nat} (h : k ≤ s.cfg.bufWords) :
    s.zeroFill k = .ok (s.setBuf (s.buf.zeroed k)) := by
  induction k with
  | zero => rfl
  | succ k ih =>
    rw [State.zeroFill, ih (by omega)]
    exact State.memWrite_of_lt (by simpa using h) 0

/-- The words after the zero fill of START. -/
theorem State.word_zeroed (s : State) (k i : Nat) :
    (s.setBuf (s.buf.zeroed k)).word i = if i < k then 0 else s.word i := by
  rw [State.word, State.setBuf_buf, Memory.read_zeroed]
  split <;> rfl

/-- The counting loop completes when every word it reads is in the address space; the sum is the fold over those words. -/
theorem State.countWords_eq (s : State) {k : Nat} (h : k ≤ s.cfg.bufWords) :
    s.countWords k = .ok ((s.words k).foldl accStep s.acc) := by
  induction k with
  | zero => rfl
  | succ k ih =>
    rw [State.countWords, ih (by omega)]
    simp [State.memRead_of_lt (s := s) h, State.words, List.range_succ]

/-- If the counting loop completes, that is why. -/
theorem State.countWords_inv {s : State} {k : Nat} {a : Word} (h : s.countWords k = .ok a) :
    k ≤ s.cfg.bufWords ∧ a = (s.words k).foldl accStep s.acc := by
  have hk : k ≤ s.cfg.bufWords := by
    cases k with
    | zero => omega
    | succ k =>
      rw [State.countWords] at h
      cases hc : s.countWords k with
      | error f => simp [hc] at h
      | ok b =>
        by_cases hk : k < s.cfg.bufWords
        · exact hk
        · simp [hc, State.memRead, hk] at h
  rw [State.countWords_eq s hk] at h
  injection h with h
  exact ⟨hk, h.symm⟩

theorem answerOf_eq_next {r : Except Fault State} {t : State} : answerOf r = .next t ↔ r = .ok t := by
  cases r <;> simp [answerOf]

theorem answerOf_ne_refused (r : Except Fault State) (e : Refusal) : answerOf r ≠ .refused e := by
  cases r <;> simp [answerOf]

theorem State.unlessFault_of_fault {s : State} (h : s.phase = .fault) (k : Answer) : s.unlessFault k = .next s := by
  simp [State.unlessFault, h]

theorem State.unlessFault_of_ne {s : State} (h : s.phase ≠ .fault) (k : Answer) : s.unlessFault k = k := by
  simp [State.unlessFault, h]

theorem State.unlessFault_cases {s t : State} {k : Answer} (h : s.unlessFault k = .next t) :
    (s.phase = .fault ∧ t = s) ∨ (s.phase ≠ .fault ∧ k = .next t) := by
  by_cases hf : s.phase = .fault
  · rw [State.unlessFault_of_fault hf] at h
    exact .inl ⟨hf, by injection h with h; exact h.symm⟩
  · exact .inr ⟨hf, by rwa [State.unlessFault_of_ne hf] at h⟩

end Sys2Proof.Machine
end

