-- ==== Sys2Proof/Laws/Exec.lean ====
section
/-! SUPPORT. What each command can do, said once: if it answers a next state, one of the listed cases holds. -/

namespace Sys2Proof.Machine

theorem execBuflen_cases {n : Word} {s t : State} (h : execBuflen n s = .next t) :
    (s.phase = .fault ∧ t = s) ∨ (s.phase ≠ .fault ∧ t = s.setBlen (bufferLength n)) := by
  rcases State.unlessFault_cases h with h | ⟨hf, h⟩
  · exact .inl h
  · exact .inr ⟨hf, by injection h with h; exact h.symm⟩

theorem execStart_cases {n : Word} {s t : State} (h : execStart n s = .next t) :
    (s.phase = .fault ∧ t = s) ∨ (s.phase = .load ∧ t = s.raise .seq) ∨
      ((s.phase = .idle ∨ s.phase = .done) ∧ s.cfg.bufWords < (bufferLength n).toNat ∧ t = s.raise .cap) ∨
      ((s.phase = .idle ∨ s.phase = .done) ∧ (bufferLength n).toNat ≤ s.cfg.bufWords ∧
        t = (s.openOperation n).setBuf (s.buf.zeroed (bufferLength n).toNat)) := by
  rcases State.unlessFault_cases h with h | ⟨hf, h⟩
  · exact .inl h
  by_cases hl : s.phase = .load
  · refine .inr (.inl ⟨hl, ?_⟩)
    simp only [State.startInSequence, hl] at h
    injection h with h
    exact h.symm
  have hp : s.phase = .idle ∨ s.phase = .done := by cases hph : s.phase <;> simp_all
  rw [if_pos (by simpa [State.startInSequence] using hl)] at h
  by_cases hc : (bufferLength n).toNat ≤ s.cfg.bufWords
  · rw [if_pos (by simpa [State.lengthFits] using hc), State.zeroFill_eq (s.openOperation n) hc] at h
    injection h with h
    exact .inr (.inr (.inr ⟨hp, hc, h.symm⟩))
  · rw [if_neg (by simpa [State.lengthFits] using hc)] at h
    injection h with h
    exact .inr (.inr (.inl ⟨hp, by omega, h.symm⟩))

theorem execPush_cases {w : Word} {s t : State} (h : execPush w s = .next t) :
    (s.phase = .fault ∧ t = s) ∨
      (s.phase ≠ .fault ∧ ¬(s.phase = .load ∧ s.idx < copyWords s.len) ∧ t = s.raise .seq) ∨
      (s.phase = .load ∧ s.idx < copyWords s.len ∧ s.idx.toNat < s.cfg.bufWords ∧
        t = (s.setBuf (s.buf.write s.idx.toNat w)).advanceIndex) := by
  rcases State.unlessFault_cases h with h | ⟨hf, h⟩
  · exact .inl h
  by_cases hq : s.phase = .load ∧ s.idx < copyWords s.len
  · rw [if_pos (by simpa [State.pushInSequence] using hq)] at h
    by_cases hi : s.pushIndex < s.cfg.bufWords
    · rw [State.memWrite_of_lt hi] at h
      injection h with h
      exact .inr (.inr ⟨hq.1, hq.2, hi, h.symm⟩)
    · simp [State.memWrite, hi] at h
  · rw [if_neg (by simpa [State.pushInSequence] using hq)] at h
    injection h with h
    exact .inr (.inl ⟨hf, hq, h.symm⟩)

/-- The state after step 3 of FINISH: the mask on the last word. -/
def State.masked (s : State) : State := s.setBuf (s.buf.write s.lastIndex (maskedLast s.len (s.word s.lastIndex)))

theorem State.masked_word (s : State) (i : Nat) :
    s.masked.word i = if i = s.lastIndex then maskedLast s.len (s.word s.lastIndex) else s.word i :=
  State.word_write s _ i _

theorem State.maskLast_of_lt {s : State} (h : s.lastIndex < s.cfg.bufWords) : s.maskLast = .ok s.masked := by
  rw [State.maskLast, State.memRead_of_lt h]
  exact State.memWrite_of_lt h _

theorem State.maskLast_inv {s t : State} (h : s.maskLast = .ok t) : s.lastIndex < s.cfg.bufWords ∧ t = s.masked := by
  by_cases hi : s.lastIndex < s.cfg.bufWords
  · rw [State.maskLast_of_lt hi] at h
    injection h with h
    exact ⟨hi, h.symm⟩
  · simp [State.maskLast, State.memRead, hi] at h

/-- An accepted FINISH whose words exist completes, with this next state. -/
theorem execFinish_of_le {s : State} (hp : s.phase = .load) (hq : s.idx = copyWords s.len)
    (hl : s.lastIndex < s.cfg.bufWords) (hw : s.wc.toNat ≤ s.cfg.bufWords) :
    execFinish s = .next (s.masked.closeOperation ((s.masked.words s.wc.toNat).foldl accStep s.acc)) := by
  rw [execFinish, State.unlessFault_of_ne (by simp [hp]), if_pos (by simp [State.finishInSequence, hp, hq]),
    State.maskLast_of_lt hl]
  simp only [State.countAndClose]
  rw [show s.masked.wc = s.wc from rfl, State.countWords_eq s.masked (show s.wc.toNat ≤ s.masked.cfg.bufWords from hw)]
  rfl

theorem execFinish_cases {s t : State} (h : execFinish s = .next t) :
    (s.phase = .fault ∧ t = s) ∨
      (s.phase ≠ .fault ∧ ¬(s.phase = .load ∧ s.idx = copyWords s.len) ∧ t = s.raise .seq) ∨
      (s.phase = .load ∧ s.idx = copyWords s.len ∧ s.lastIndex < s.cfg.bufWords ∧ s.wc.toNat ≤ s.cfg.bufWords ∧
        t = s.masked.closeOperation ((s.masked.words s.wc.toNat).foldl accStep s.acc)) := by
  rcases State.unlessFault_cases h with h | ⟨hf, h⟩
  · exact .inl h
  by_cases hq : s.phase = .load ∧ s.idx = copyWords s.len
  · rw [if_pos (by simpa [State.finishInSequence] using hq)] at h
    cases hm : s.maskLast with
    | error f => simp [hm] at h
    | ok m =>
      simp only [hm, answerOf_eq_next, State.countAndClose] at h
      obtain ⟨hl, rfl⟩ := State.maskLast_inv hm
      cases hc : s.masked.countWords s.masked.wc.toNat with
      | error f => simp [hc] at h
      | ok a =>
        simp only [hc, Except.ok.injEq] at h
        obtain ⟨hw, rfl⟩ := State.countWords_inv hc
        exact .inr (.inr ⟨hq.1, hq.2, hl, hw, h.symm⟩)
  · rw [if_neg (by simpa [State.finishInSequence] using hq)] at h
    injection h with h
    exact .inr (.inl ⟨hf, hq, h.symm⟩)

theorem State.illegalWord_cases {s t : State} (h : s.illegalWord = .next t) :
    (s.phase = .fault ∧ t = s) ∨ (s.phase ≠ .fault ∧ t = s.raise .enc) := by
  rcases State.unlessFault_cases h with h | ⟨hf, h⟩
  · exact .inl h
  · exact .inr ⟨hf, by injection h with h; exact h.symm⟩

end Sys2Proof.Machine
end

