-- ==== Sys2Proof/Laws/PerInstr.lean ====
section
/-! SUPPORT. Per-command facts about the encoding: each command's word is covered by its own row of the opcode map (R43). -/

namespace Sys2Proof.Laws.OwnRow

/-- The word of a command matches the command's row: `c & mask = match` (R43). -/
def Statement (i : Instr) : Prop := i.row.covers (encode i) = true

theorem and_of_op (o : BitVec 2) (a : Word) : (o ++ a : BitVec (2 + 32)) &&& (3#2 ++ 0#32) = o ++ 0#32 := by
  ext k hk
  simp only [BitVec.getElem_and, BitVec.getElem_append]
  have h3 : ∀ j (hj : j < 2), (3#2)[j] = true := by decide
  split
  · simp
  · simp [h3 (k - 32) (by omega)]

theorem buflen (n : Word) : Statement (.buflen n) := beq_iff_eq.2 (and_of_op 0 n)
theorem start (n : Word) : Statement (.start n) := beq_iff_eq.2 (and_of_op 1 n)
theorem push (w : Word) : Statement (.push w) := beq_iff_eq.2 (and_of_op 2 w)
theorem finish : Statement .finish := by unfold Statement; decide

end Sys2Proof.Laws.OwnRow
end

