-- ==== Sys2Proof/Laws/Step.lean ====
section
/-! SUPPORT. What a step can do, said once. -/

namespace Sys2Proof.Machine

theorem step_nil {s : State} (h : s.edges = []) : step s = .next s := by simp [step, nextEdge, h]

theorem step_reset {s : State} {e : PortEdge} {rest : List PortEdge} (h : s.edges = e :: rest) (hr : e.rst = true) :
    step s = .next (s.setEdges rest).resetEdge := by simp [step, nextEdge, h, clockEdge, hr]

theorem step_idle {s : State} {e : PortEdge} {rest : List PortEdge} (h : s.edges = e :: rest) (hr : e.rst = false)
    (hv : e.cmdValid = false) : step s = .next (s.setEdges rest) := by simp [step, nextEdge, h, clockEdge, hr, hv]

theorem step_command {s : State} {e : PortEdge} {rest : List PortEdge} (h : s.edges = e :: rest) (hr : e.rst = false)
    (hv : e.cmdValid = true) : step s = acceptWord e.cmd (s.setEdges rest) := by
  simp [step, nextEdge, h, clockEdge, hr, hv, State.cmdReady]

/-- Every step is one of four: no input, reset, an idle edge, an accepted word. -/
theorem step_cases (s : State) :
    (s.edges = [] ∧ step s = .next s) ∨
      ∃ e rest, s.edges = e :: rest ∧
        ((e.rst = true ∧ step s = .next (s.setEdges rest).resetEdge) ∨
          (e.rst = false ∧ e.cmdValid = false ∧ step s = .next (s.setEdges rest)) ∨
          (e.rst = false ∧ e.cmdValid = true ∧ step s = acceptWord e.cmd (s.setEdges rest))) := by
  cases h : s.edges with
  | nil => exact .inl ⟨rfl, step_nil h⟩
  | cons e rest =>
    refine .inr ⟨e, rest, rfl, ?_⟩
    cases hr : e.rst with
    | true => exact .inl ⟨rfl, step_reset h hr⟩
    | false =>
      cases hv : e.cmdValid with
      | false => exact .inr (.inl ⟨rfl, rfl, step_idle h hr hv⟩)
      | true => exact .inr (.inr ⟨rfl, rfl, step_command h hr hv⟩)

/-- An accepted word is a command or ILLEGAL (R44). -/
theorem acceptWord_cases (c : CmdWord) (s : State) :
    (∃ i, decode c = .ok i ∧ acceptWord c s = exec i s) ∨ (∃ e, decode c = .error e ∧ acceptWord c s = s.illegalWord) := by
  cases h : decode c with
  | ok i => exact .inl ⟨i, rfl, by simp [acceptWord, h]⟩
  | error e => exact .inr ⟨e, rfl, by simp [acceptWord, h]⟩

end Sys2Proof.Machine
end

