-- ==== Sys2Proof/Laws/Run.lean ====
section
/-! SUPPORT. Runs over presented words: a run of the core is the accepted words one after the other, on the state without
the inputs still to come. -/

namespace Sys2Proof.Machine

theorem core_run_next (M : Host.Core) (k : Nat) (s t : M.State) (h : M.step s = .next t) :
    M.run (k + 1) s = M.run k t := by rw [Host.Core.run, h]

theorem core_run_fault (M : Host.Core) (k : Nat) (s : M.State) (r : M.Fault) (h : M.step s = .fault r) :
    M.run (k + 1) s = .fault r := by rw [Host.Core.run, h]

theorem core_run_refused (M : Host.Core) (k : Nat) (s : M.State) (r : M.Refusal) (h : M.step s = .refused r) :
    M.run (k + 1) s = .refused r := by rw [Host.Core.run, h]

/-- Change the next state of an answer. -/
def mapNext (f : State → State) : Answer → Answer
  | .next t => .next (f t)
  | .fault r => .fault r
  | .refused r => .refused r

/-- The counting loop reads no input. -/
theorem State.countWords_setEdges (s : State) (es : List PortEdge) (k : Nat) :
    (s.setEdges es).countWords k = s.countWords k := by
  induction k with
  | zero => rfl
  | succ k ih => rw [State.countWords, State.countWords, ih]; rfl

theorem State.memWrite_setEdges (s : State) (es : List PortEdge) (i : Nat) (w : Word) :
    (s.setEdges es).memWrite i w = (s.memWrite i w).map (·.setEdges es) := by
  by_cases h : i < s.cfg.bufWords
  · rw [State.memWrite_of_lt h, State.memWrite_of_lt (s := s.setEdges es) h]
    rfl
  · rw [State.memWrite, State.memWrite, if_neg h, if_neg (show ¬i < (s.setEdges es).cfg.bufWords from h)]
    rfl

theorem State.unlessFault_setEdges (s : State) (es : List PortEdge) {k k' : Answer}
    (h : k' = mapNext (·.setEdges es) k) :
    (s.setEdges es).unlessFault k' = mapNext (·.setEdges es) (s.unlessFault k) := by
  by_cases hf : s.phase = .fault
  · rw [State.unlessFault_of_fault hf, State.unlessFault_of_fault (s := s.setEdges es) hf]; rfl
  · rw [State.unlessFault_of_ne hf, State.unlessFault_of_ne (s := s.setEdges es) hf, h]

theorem execStart_setEdges (n : Word) (s : State) (es : List PortEdge) :
    execStart n (s.setEdges es) = mapNext (·.setEdges es) (execStart n s) := by
  refine State.unlessFault_setEdges s es ?_
  by_cases hq : s.startInSequence = true
  · rw [if_pos hq, if_pos (show (s.setEdges es).startInSequence = true from hq)]
    by_cases hc : s.lengthFits n = true
    · rw [if_pos hc, if_pos (show (s.setEdges es).lengthFits n = true from hc)]
      have h : (bufferLength n).toNat ≤ s.cfg.bufWords := of_decide_eq_true hc
      rw [State.zeroFill_eq (s.openOperation n) h, State.zeroFill_eq ((s.setEdges es).openOperation n) h]
      rfl
    · rw [if_neg hc, if_neg (show ¬(s.setEdges es).lengthFits n = true from hc)]
      rfl
  · rw [if_neg hq, if_neg (show ¬(s.setEdges es).startInSequence = true from hq)]
    rfl

theorem execPush_setEdges (w : Word) (s : State) (es : List PortEdge) :
    execPush w (s.setEdges es) = mapNext (·.setEdges es) (execPush w s) := by
  refine State.unlessFault_setEdges s es ?_
  by_cases hq : s.pushInSequence = true
  · rw [if_pos hq, if_pos (show (s.setEdges es).pushInSequence = true from hq)]
    rw [State.memWrite_setEdges, show (s.setEdges es).pushIndex = s.pushIndex from rfl]
    cases s.memWrite s.pushIndex w <;> rfl
  · rw [if_neg hq, if_neg (show ¬(s.setEdges es).pushInSequence = true from hq)]
    rfl

theorem State.maskLast_setEdges (s : State) (es : List PortEdge) :
    (s.setEdges es).maskLast = s.maskLast.map (·.setEdges es) := by
  rw [State.maskLast, State.maskLast, show (s.setEdges es).memRead (s.setEdges es).lastIndex = s.memRead s.lastIndex from rfl]
  cases h : s.memRead s.lastIndex with
  | error f => rfl
  | ok x => exact State.memWrite_setEdges s es _ _

theorem execFinish_setEdges (s : State) (es : List PortEdge) :
    execFinish (s.setEdges es) = mapNext (·.setEdges es) (execFinish s) := by
  refine State.unlessFault_setEdges s es ?_
  by_cases hq : s.finishInSequence = true
  · rw [if_pos hq, if_pos (show (s.setEdges es).finishInSequence = true from hq), State.maskLast_setEdges]
    cases hm : s.maskLast with
    | error f => rfl
    | ok m =>
      simp only [Except.map, State.countAndClose, State.countWords_setEdges, State.setEdges_wc]
      cases m.countWords m.wc.toNat <;> rfl
  · rw [if_neg hq, if_neg (show ¬(s.setEdges es).finishInSequence = true from hq)]
    rfl

/-- A command neither reads nor changes the inputs still to come. -/
theorem exec_setEdges (i : Instr) (s : State) (es : List PortEdge) :
    exec i (s.setEdges es) = mapNext (·.setEdges es) (exec i s) := by
  cases i with
  | buflen n => exact State.unlessFault_setEdges s es rfl
  | start n => exact execStart_setEdges n s es
  | push w => exact execPush_setEdges w s es
  | finish => exact execFinish_setEdges s es

theorem acceptWord_setEdges (c : CmdWord) (s : State) (es : List PortEdge) :
    acceptWord c (s.setEdges es) = mapNext (·.setEdges es) (acceptWord c s) := by
  rcases hd : decode c with e | i
  · simp only [acceptWord, hd]; exact State.unlessFault_setEdges s es rfl
  · simp only [acceptWord, hd]; exact exec_setEdges i s es

theorem acceptWord_edges {c : CmdWord} {s t : State} (h : acceptWord c s = .next t) : t.edges = s.edges := by
  have := acceptWord_setEdges c s s.edges
  rw [show s.setEdges s.edges = s from rfl, h] at this
  injection this with this
  rw [this]
  rfl

theorem step_present (s : State) (c : CmdWord) : step (s.present c) = acceptWord c s :=
  step_command (e := PortEdge.command c) (rest := s.edges) rfl rfl rfl

/-- The words accepted one after the other. -/
def acceptAll : List CmdWord → State → Answer
  | [], s => .next s
  | c :: cs, s =>
    match acceptWord c s with
    | .next t => acceptAll cs t
    | .fault r => .fault r
    | .refused r => .refused r

theorem runWords_eq_acceptAll (s : State) (cs : List CmdWord) : s.runWords cs = acceptAll cs s := by
  induction cs generalizing s with
  | nil => rfl
  | cons c cs ih =>
    have hs : step (s.presentAll (c :: cs)) =
        mapNext (·.setEdges (cs.map PortEdge.command ++ s.edges)) (acceptWord c s) := by
      rw [show s.presentAll (c :: cs) = (s.presentAll cs).present c from rfl, step_present]
      exact acceptWord_setEdges c s _
    show Host.Core.run Sys2Proof.core (cs.length + 1) (s.presentAll (c :: cs)) = _
    rw [acceptAll]
    cases ha : acceptWord c s with
    | next t =>
      rw [ha] at hs
      refine (core_run_next Sys2Proof.core _ (s.presentAll (c :: cs)) _ hs).trans ?_
      rw [← acceptWord_edges ha]
      exact ih t
    | fault r =>
      rw [ha] at hs
      exact core_run_fault Sys2Proof.core _ (s.presentAll (c :: cs)) r hs
    | refused r =>
      rw [ha] at hs
      exact core_run_refused Sys2Proof.core _ (s.presentAll (c :: cs)) r hs

end Sys2Proof.Machine
end

