-- ==== Sys2Proof/Tests/Slice0.lean ====
section
/-! SUPPORT. Tests, with the expected values of 95_test_vectors.md, and a witness for each statement with hypotheses. -/

open Sys2Proof Sys2Proof.Machine

namespace Sys2Proof.Tests

/-! ### Helpers -/

/-- The next state of an answer. -/
def nextOf : Answer → Option State
  | .next t => some t
  | .fault _ => none
  | .refused _ => none

/-- The state after commands from reset; a stop leaves the state. -/
def after (is : List Instr) : State := is.foldl (fun s i => (nextOf (exec i s)).getD s) State.reset

/-- An operation of length 33, both words pushed. -/
def full33 : State := after [.start 33, .push 0xFFFFFFFF, .push 0xFFFFFFFF]

/-- An operation of length 33, finished. -/
def done33 : State := after [.start 33, .push 0xFFFFFFFF, .push 0xFFFFFFFF, .finish]

/-- The reset state after a PUSH without START (vector F1). -/
def faulted : State := after [.push 1]

/-- The parts of the invariant, each small enough for `decide`. -/
theorem inv_of_parts {s : State} (h1 : s.cfg.Valid ∧ s.BufInv ∧ s.IdleInv) (h2 : s.LoadInv) (h3 : s.DoneInv)
    (h4 : s.FaultInv ∧ s.BlenInv) : s.Inv := ⟨h1.1, h1.2.1, h1.2.2, h2, h3, h4⟩

theorem full33_inv : (full33.present 0x300000000).Inv := inv_of_parts (by decide) (by decide) (by decide) (by decide)

theorem done33_inv : (done33.present 0x100000005).Inv := inv_of_parts (by decide) (by decide) (by decide) (by decide)

theorem reset_state_inv : State.reset.Inv := inv_of_parts (by decide) (by decide) (by decide) (by decide)

/-! ### Well-formedness: what each check refuses -/

theorem test_reserved_field_refused : ({ op := 3, arg := 1 } : Fields).wellFormed = false := by decide

theorem test_reserved_zero_accepted : ({ op := 3, arg := 0 } : Fields).wellFormed = true := by decide

/-- R48: a number that does not fit is refused, for each kind of line. -/
theorem test_big_numbers_refused :
    assembleLine (.buflen (2 ^ 32)) = none ∧ assembleLine (.start (2 ^ 32)) = none ∧
    assembleLine (.push (2 ^ 32)) = none ∧ assembleLine (.cmd (2 ^ 34)) = none ∧
    assembleLine (.card 8 [2 ^ 32]) = none ∧ assembleLine (.card (2 ^ 32) []) = none := by decide

/-- Section 2.6: "`card 32, 0xFFFFFFFF, 0` is rejected by the assembler". -/
theorem test_card_operand_count_refused : assembleLine (.card 32 [0xFFFFFFFF, 0]) = none := by decide

/-! ### Decoding and encoding: words written out from R41 and R43, `op` in bits 33:32 -/

theorem test_decode_buflen : decode 0b00_00000000000000000000000000100000 = .ok (.buflen 32) := by decide

theorem test_decode_start : decode 0b01_00000000000000000000000000100001 = .ok (.start 33) := by decide

theorem test_decode_push : decode 0b10_11011110101011011011111011101111 = .ok (.push 0xDEADBEEF) := by decide

theorem test_decode_finish : decode 0b11_00000000000000000000000000000000 = .ok .finish := by decide

theorem test_decode_illegal :
    decode 0b11_10000000000000000000000000000000 = .error (.finishArgNotZero 0x80000000) := by decide

/-- Section 2.6: "`encode(START(33)) = 2^32 + 33`". -/
theorem test_encode_start : encode (.start 33) = 0x100000021 := by decide

/-- The rows of the opcode table. -/
theorem test_table_words :
    decodeTableWord 40 0x100000021 = some (.start 33) ∧ decodeTableWord 40 0x300000001 = none := by decide

/-- Section 2.6: `card.bits 10110100`, from its text. -/
theorem test_card_bits_text :
    assemble "card.bits 10110100 ; N = 8".toList = some [0x100000008, 0x20000002D, 0x300000000] := by decide

theorem test_directive_text : assemble ".cmd 0x300000001".toList = some [0x300000001] := by decide

/-! ### One step each (sections 1.1, 1.3, 2.3 and 2.5) -/

/-- E1: `buflen 32` gives 2, not 1. -/
theorem test_buflen_32 : (nextOf (exec (.buflen 32) State.reset)).map State.blen = some 2 := by decide

/-- Section 2.1: the largest length does not wrap. -/
theorem test_buflen_max : (nextOf (exec (.buflen 0xFFFFFFFF) State.reset)).map State.blen = some 0x08000000 := by decide

/-- E7: START 32 zeroes two words. -/
theorem test_start_32 :
    (nextOf (exec (.start 32) State.reset)).map (fun t => (t.phase, t.wc, t.buf)) =
      some (.load, 2, [(0, 0), (1, 0)]) := by decide

/-- F12: START 128 does not fit four words. -/
theorem test_start_128 :
    (nextOf (exec (.start 128) State.reset)).map (fun t => (t.phase, t.ecode, t.len, t.buf)) =
      some (.fault, .cap, 0, []) := by decide

/-- E8, third row. -/
theorem test_push_second_word :
    (nextOf (exec (.push 0xFFFFFFFF) (after [.start 33, .push 0xFFFFFFFF]))).map (fun t => (t.idx, t.buf)) =
      some (2, [(0, 0xFFFFFFFF), (1, 0xFFFFFFFF)]) := by decide

/-- F6: the extra word cannot be pushed. -/
theorem test_push_extra_word :
    (nextOf (exec (.push 0) (after [.start 32, .push 0xFFFFFFFF]))).map (fun t => (t.phase, t.ecode, t.idx)) =
      some (.fault, .seq, 1) := by decide

/-- E8, last row: stray bits masked, 33 bits counted. -/
theorem test_finish_33 :
    (nextOf (exec .finish full33)).map (fun t => (t.phase, t.acc, t.idx, t.buf)) =
      some (.done, 33, 2, [(0, 0xFFFFFFFF), (1, 1)]) := by decide

/-- F7: FINISH one word early. -/
theorem test_finish_early :
    (nextOf (exec .finish (after [.start 33, .push 0xFFFFFFFF]))).map (fun t => (t.phase, t.ecode, t.acc)) =
      some (.fault, .seq, 0) := by decide

/-- F10: an ILLEGAL word in IDLE raises E_ENC. -/
theorem test_illegal_word :
    (nextOf (step (State.reset.present 0x300000001))).map (fun t => (t.phase, t.ecode)) = some (.fault, .enc) := by decide

/-- Section 2.5: the codes of ECODE as the fault rows F10, F1 and F12 write them. -/
theorem test_fault_codes :
    (nextOf (step (State.reset.present 0x300000001))).map (·.ports.ecodeO) = some 1 ∧
    (nextOf (step (State.reset.present 0x200000001))).map (·.ports.ecodeO) = some 2 ∧
    (nextOf (step (State.reset.present 0x100000080))).map (·.ports.ecodeO) = some 3 := by decide

/-- Section 2.2: a word that separates the two groupings of R61. -/
theorem test_reducer_grouping : pc32 0x0000002D = 4 ∧ pc32 0xDEADBEEF = 24 := by decide

/-! ### Witnesses: states and operands that meet the hypotheses of the statements -/

theorem witness_DecodeAndEncodeAgree :
    (Instr.start 33).wellFormed = true ∧ decode 0x3FFFFFFFF ≠ .ok .finish ∧ decode 0x2FFFFFFFF = .ok (.push 0xFFFFFFFF) := by
  decide

theorem witness_ArgumentIsUsedAsItStands :
    (0x0FFFFFFFF : CmdWord).toNat / 2 ^ 32 = 0 ∧ (0x1FFFFFFFF : CmdWord).toNat / 2 ^ 32 = 1 ∧
    (0x2FFFFFFFF : CmdWord).toNat / 2 ^ 32 = 2 ∧ (0x300000000 : CmdWord).toNat / 2 ^ 32 = 3 ∧
    (0x300000000 : CmdWord).toNat % 2 ^ 32 = 0 := by decide

theorem witness_IllegalWordsRaiseEEnc :
    0x300000001 ≤ (0x300000001 : CmdWord).toNat ∧ (0x3FFFFFFFF : CmdWord).toNat = 0x3FFFFFFFF ∧
    State.reset.phase ≠ .fault ∧ full33.phase ≠ .fault ∧ done33.phase ≠ .fault := by decide

theorem witness_BufferLengthIsFloorPlusOne :
    (33 : Word).toNat % 32 ≠ 0 ∧ (4294967264 : Word).toNat % 32 = 0 ∧ (0 : Word).toNat % 32 = 0 := by decide

theorem witness_CopyWordsIsCeiling :
    (4294967295 : Word).toNat % 32 ≠ 0 ∧ (0 : Word).toNat % 32 = 0 ∧ (64 : Word).toNat % 32 = 0 := by decide

theorem witness_TrailingMaskKeepsLowBits : (0 : Word).toNat ≤ 31 ∧ (31 : Word).toNat ≤ 31 := by decide

theorem witness_ReducerAlgebra : (0x0000FFFF : Word) &&& 0xFFFF0000 = 0 := by decide

theorem witness_MaskClearsExactlyBeyondLength :
    [(0xFFFFFFFF : Word), 0xFFFFFFFF].length = (bufferLength 33).toNat ∧ 63 < 32 * [(0 : Word), 0].length ∧
    [(0xFFFFFFFF : Word)].length = (bufferLength 0).toNat := by decide

theorem witness_MaskedFoldNeverWraps : [(0xFFFFFFFF : Word), 0xFFFFFFFF].length = (bufferLength 33).toNat := by decide

theorem witness_StreamingFoldAgrees : [(0xFFFFFFFF : Word), 0].length = (bufferLength 32).toNat := by decide

theorem witness_AlgorithmCountsVectorBits :
    [(0xFFFFFFFF : Word), 0xFFFFFFFF].length = ((33 : Word).toNat + 31) / 32 ∧
    ([] : List Word).length = ((0 : Word).toNat + 31) / 32 := by decide

theorem witness_PackPlacesBitsInOrder : 32 < (List.replicate 33 true).length ∧ (List.replicate 33 true).length ≤ 63 := by
  decide

theorem witness_BuflenWritesOnlyBlen : faulted.phase = .fault ∧ State.reset.phase ≠ .fault := by decide

theorem witness_StartOpensAnOperation :
    faulted.phase = .fault ∧ full33.phase = .load ∧ done33.phase = .done ∧ State.reset.phase = .idle ∧
    State.reset.cfg.bufWords < (128 : Word).toNat / 32 + 1 ∧ (127 : Word).toNat / 32 + 1 ≤ done33.cfg.bufWords := by decide

theorem witness_StartAcceptsExactlyWhatFits :
    State.reset.phase = .idle ∧ ({ State.reset with cfg := { bufWords := 2 ^ 27 } } : State).cfg.bufWords = 2 ^ 27 := by decide

theorem witness_PushWritesTheNextWord :
    faulted.phase = .fault ∧ State.reset.phase = .idle ∧
    (full33.phase = .load ∧ (full33.len.toNat + 31) / 32 ≤ full33.idx.toNat) ∧
    (let s := after [.start 127, .push 0, .push 0, .push 0]
     s.phase = .load ∧ s.idx.toNat < (s.len.toNat + 31) / 32 ∧ s.pushIndex < s.cfg.bufWords) := by decide

theorem witness_FinishMasksAndCounts :
    faulted.phase = .fault ∧ done33.phase = .done ∧ done33.phase ≠ .fault ∧ (0xFFFFFFFF : Word) ≠ 0 ∧
    (let s := after [.start 33, .push 1]
     s.phase = .load ∧ s.idx.toNat ≠ (s.len.toNat + 31) / 32) ∧
    full33.phase = .load ∧ full33.idx.toNat = (full33.len.toNat + 31) / 32 ∧ 1 ≤ full33.wc.toNat ∧
    full33.wc.toNat ≤ full33.cfg.bufWords ∧ full33.acc = 0 := by decide

/-- The states of this statement are none that a run reaches. -/
theorem witness_StopsOutsideTheBuffer :
    (let s := { after [.start 33] with cfg := { bufWords := 0 } }
     s.phase = .load ∧ s.idx < copyWords s.len ∧ s.cfg.bufWords ≤ s.idx.toNat) ∧
    (let s := { full33 with cfg := { bufWords := 1 } }
     s.phase = .load ∧ s.idx = copyWords s.len ∧ s.cfg.bufWords ≤ s.lastIndex) := by decide

theorem witness_StopsOutsideTheBuffer_stop :
    exec .finish { full33 with cfg := { bufWords := 1 } } = .fault .bufIndexOutOfRange := rfl

theorem witness_RegistersChangeOnlyByTheirWriters :
    exec .finish full33 = .next done33 ∧ done33.acc ≠ full33.acc ∧ done33.phase ≠ full33.phase := ⟨rfl, by decide, by decide⟩

theorem witness_RegistersChangeOnlyByTheirWriters_others :
    exec (.start 33) State.reset = .next (after [.start 33]) ∧ (after [.start 33]).len ≠ State.reset.len ∧
    (after [.start 33]).wc ≠ State.reset.wc ∧ exec (.push 1) State.reset = .next faulted ∧
    faulted.ecode ≠ State.reset.ecode ∧ exec (.push 0) (after [.start 33]) = .next (after [.start 33, .push 0]) ∧
    (after [.start 33, .push 0]).idx ≠ (after [.start 33]).idx ∧
    exec (.buflen 0) State.reset = .next (after [.buflen 0]) ∧ (after [.buflen 0]).blen ≠ State.reset.blen :=
  ⟨rfl, by decide, by decide, rfl, by decide, rfl, by decide, rfl, by decide⟩

theorem witness_BufferChangesOnlyAtImplicitAddresses :
    exec .finish full33 = .next done33 ∧ done33.word 1 ≠ full33.word 1 := ⟨rfl, by decide⟩

theorem witness_BlenInfluencesNothing :
    (∀ n, Instr.finish ≠ .buflen n) ∧ exec .finish full33 = .next done33 ∧
    exec (.buflen 0) State.reset = .next (after [.buflen 0]) ∧ State.reset.phase ≠ .fault ∧
    exec (.buflen 0) faulted = .next faulted ∧ faulted.phase = .fault ∧
    exec .finish { full33 with cfg := { bufWords := 1 } } = .fault .bufIndexOutOfRange :=
  ⟨fun _ h => (by cases h), rfl, rfl, by decide, rfl, by decide, rfl⟩

theorem witness_SequenceFaultsExactly : full33.LoadInv ∧ full33.phase ≠ .fault ∧ State.reset.LoadInv :=
  ⟨by decide, by decide, by decide⟩

theorem witness_CapacityFaultsExactly : State.reset.phase ≠ .fault := by decide

theorem witness_FaultsInPriorityOrder :
    faulted.LoadInv ∧ faulted.phase = .fault ∧ full33.LoadInv ∧ full33.phase ≠ .fault ∧
    (∃ e, decode 0x300000001 = .error e) ∧ decode 0x1FFFFFFFF = .ok (.start 0xFFFFFFFF) ∧
    full33.OutOfSequence (.start 0xFFFFFFFF) ∧ State.reset.LoadInv ∧ ¬ State.reset.OutOfSequence (.start 0xFFFFFFFF) ∧
    State.reset.cfg.bufWords < (0xFFFFFFFF : Word).toNat / 32 + 1 :=
  ⟨by decide, by decide, by decide, by decide, ⟨_, rfl⟩, by decide, rfl, by decide, fun h => (by cases h), by decide⟩

theorem witness_FaultsArePrecise :
    step (State.reset.present 0x200000001) = .next faulted ∧ (State.reset.present 0x200000001).phase ≠ .fault ∧
    faulted.phase = .fault := ⟨rfl, by decide, by decide⟩

theorem witness_FaultPhaseDiscardsEveryWord : faulted.phase = .fault := by decide

theorem witness_PhaseMovesOnlyAsListed :
    step (full33.present 0x300000000) = .next done33 ∧ (full33.present 0x300000000).phase = .load ∧ done33.phase = .done :=
  ⟨rfl, by decide, by decide⟩

theorem witness_CountPortByPhase : full33.Inv ∧ full33.phase = .load ∧ done33.Inv ∧ done33.phase = .done :=
  ⟨full33_inv, by decide, done33_inv, by decide⟩

theorem witness_ResetEdgeGivesTheResetState :
    let e : PortEdge := { rst := true, cmdValid := true, cmd := 0x300000000 }
    (faulted.setEdges [e]).edges = e :: [] ∧ e.rst = true ∧ (faulted.setEdges [e]).phase = .fault ∧
      step (faulted.setEdges [e]) = .next { State.reset with draws := 1 } ∧ State.reset.phase ≠ .fault :=
  ⟨rfl, rfl, by decide, rfl, by decide⟩

theorem witness_ResetEdgeRedrawsTheBuffer :
    let e : PortEdge := { rst := true, cmdValid := false, cmd := 0 }
    (full33.setEdges [e]).edges = e :: [] ∧ e.rst = true ∧ (full33.setEdges [e]).word 0 = 0xFFFFFFFF := by decide

theorem witness_IdleEdgeExecutesNothing :
    (let s := full33.setEdges [{ rst := false, cmdValid := false, cmd := 0x300000000 }]
     ∀ e ∈ s.edges.head?, e.rst = false ∧ e.cmdValid = false) ∧
    ∀ e ∈ full33.edges.head?, e.rst = false ∧ e.cmdValid = false := by decide

theorem witness_StepRunsTheDecodedCommand :
    (State.reset.present 0x100000021).edges = PortEdge.command 0x100000021 :: [] ∧
    (PortEdge.command 0x100000021).rst = false ∧ (PortEdge.command 0x100000021).cmdValid = true ∧
    decode (PortEdge.command 0x100000021).cmd = .ok (.start 33) ∧ decodeTableWord 40 0x100000021 = some (.start 33) := by
  decide

theorem witness_ResetMeetsTheInvariant : ({ bufWords := 1 } : Config).Valid ∧ ({ bufWords := 2 ^ 27 } : Config).Valid := by
  decide

theorem witness_StepKeepsTheInvariant :
    (full33.present 0x300000000).Inv ∧ step (full33.present 0x300000000) = .next done33 := ⟨full33_inv, rfl⟩

theorem witness_EveryStepCompletes : (full33.present 0x300000000).Inv ∧ faulted.Inv :=
  ⟨full33_inv, inv_of_parts (by decide) (by decide) (by decide) (by decide)⟩

theorem witness_StepKeepsBufferForm :
    (full33.present 0x300000000).BufInv ∧ step (full33.present 0x300000000) = .next done33 := ⟨by decide, rfl⟩

theorem witness_CanonicalSequenceComputesCardW :
    done33.Ready 127 ∧ done33.FaultInv ∧ [(1 : Word), 2, 3, 4].length = ((127 : Word).toNat + 31) / 32 ∧
    (127 : Word).toNat % 32 ≠ 0 ∧ State.reset.Ready 96 ∧ (96 : Word).toNat % 32 = 0 := by decide

theorem witness_InterleavedBuflenChangesNoResult :
    State.reset.Ready 5 ∧ State.reset.FaultInv ∧ [(0x1F : Word)].length = ((5 : Word).toNat + 31) / 32 ∧
    (([0x000000021, 0x100000005, 0x000000020, 0x20000001F, 0x300000000] : List CmdWord).map decode).filter notBuflen =
      (canonical 5 [0x1F]).map .ok := by decide

theorem witness_DoneIsReachedOnlyCanonically :
    State.reset.Inv ∧ State.reset.phase = .idle ∧
    State.reset.runWords [0x100000021, 0x2FFFFFFFF, 0x2FFFFFFFF, 0x300000000] = .next done33 ∧ done33.phase = .done :=
  ⟨reset_state_inv, by decide, rfl, by decide⟩

theorem witness_GuaranteesOfTheCount :
    State.reset.Ready 5 ∧ State.reset.FaultInv ∧ [(0xFFFFFFE0 : Word)].length = ((5 : Word).toNat + 31) / 32 ∧
    (∀ i < (5 : Word).toNat, vectorBit [0xFFFFFFE0] i = false) ∧ (∀ i < (5 : Word).toNat, vectorBit [0x1F] i = true) ∧
    (∀ i < (5 : Word).toNat, vectorBit [0] i = vectorBit [0xFFFFFFE0] i) := by decide

theorem witness_CardBitsCountsTheVector :
    [true, false, true].length < 2 ^ 32 ∧ State.reset.Ready (BitVec.ofNat 32 [true, false, true].length) ∧
    State.reset.FaultInv ∧ [(0xFFFFFFFD : Word)].length = ([true, false, true].length + 31) / 32 ∧
    (∀ i < [true, false, true].length, vectorBit [0xFFFFFFFD] i = [true, false, true].getD i false) := by decide

theorem witness_StaleBufferIsNeverObserved :
    (done33.present 0x100000005).Inv ∧
    (done33.present 0x100000005).SameButStaleBuf { done33.present 0x100000005 with buf := [(3, 7)], draws := 9 } ∧
    step (done33.present 0x100000005) =
      .next (after [.start 33, .push 0xFFFFFFFF, .push 0xFFFFFFFF, .finish, .start 5]) :=
  ⟨done33_inv, ⟨rfl, by decide⟩, rfl⟩

theorem witness_CardExpandsToTheCanonicalSequence :
    33 < 2 ^ 32 ∧ (∀ w ∈ [4294967295, 0], w < 2 ^ 32) ∧ [4294967295, 0].length = (33 + 31) / 32 ∧
    [4294967295, 0].length ≠ (32 + 31) / 32 := by decide

theorem witness_CardBitsReadsIndexZeroFirst : [true, false].length < 2 ^ 32 := by decide

end Sys2Proof.Tests
end

section
/-! The bits of packed words (R29): one equation for every vector bit of `pack v`, from the binary sum of `packWord`. -/

namespace Sys2Proof.Machine

/-- `sum over k in 0..n-1 of b[k] * 2^k` fits `n` bits. -/
theorem sum_bits_lt_two_pow (b : Nat → Bool) (n : Nat) :
    ((List.range n).map fun k => (b k).toNat * 2 ^ k).sum < 2 ^ n := by
  induction n with
  | zero => simp
  | succ n ih =>
    have hbit : (b n).toNat * 2 ^ n ≤ 1 * 2 ^ n := Nat.mul_le_mul_right _ (Bool.toNat_le _)
    simp only [List.sum_range_succ, Nat.pow_succ]
    omega

/-- Binary notation: bit `i` of `sum over k in 0..n-1 of b[k] * 2^k` is `b[i]` below `n`, and 0 from `n` on. -/
theorem testBit_sum_bits (b : Nat → Bool) (n i : Nat) :
    (((List.range n).map fun k => (b k).toNat * 2 ^ k).sum).testBit i = (decide (i < n) && b i) := by
  induction n with
  | zero => simp
  | succ n ih =>
    rw [List.sum_range_succ, Nat.add_comm, Nat.mul_comm,
      Nat.testBit_two_pow_mul_add _ (sum_bits_lt_two_pow b n), ih]
    obtain hlt | rfl | hgt := Nat.lt_trichotomy i n
    · simp [hlt, Nat.lt_succ_of_lt hlt]
    · simp [Nat.testBit_bool_toNat, -Nat.testBit_zero]
    · have hpos : i - n ≠ 0 := by omega
      simp [hgt.not_gt, Nat.testBit_bool_toNat, hpos]
      omega

/-- Bit `k` of `Pack(v)[j]` (R29). -/
@[simp] theorem getLsbD_packWord (v : List Bool) (j k : Nat) :
    (packWord v j).getLsbD k = (decide (k < 32) && v.getD (32 * j + k) false) := by
  rw [packWord, BitVec.getLsbD_ofNat, testBit_sum_bits, ← Bool.and_assoc, Bool.and_self]

@[simp] theorem length_pack (v : List Bool) : (pack v).length = (v.length + 31) / 32 := by
  simp [pack]

theorem getD_pack_of_lt {v : List Bool} {j : Nat} (h : j < (v.length + 31) / 32) :
    (pack v).getD j 0 = packWord v j := by
  simp [pack, h]

/-- Every bit of the packed words is the vector's bit at that index, and 0 from the vector's length on (R29). -/
@[simp] theorem vectorBit_pack (v : List Bool) (i : Nat) : vectorBit (pack v) i = v.getD i false := by
  unfold vectorBit
  by_cases h : i / 32 < (v.length + 31) / 32
  · rw [getD_pack_of_lt h, getLsbD_packWord, Nat.div_add_mod]
    simp [Nat.mod_lt]
  · have hword : (pack v).getD (i / 32) 0 = 0 := List.getD_eq_default _ _ (by simpa using h)
    have hbit : v.getD i false = false := List.getD_eq_default _ _ (by omega)
    rw [hword, hbit]
    exact BitVec.getLsbD_zero

/-- Settles O17: both bit clauses read `vectorBit_pack`, below the vector's length and from it on. -/
theorem packPlacesBitsInOrder : Obligations.PackPlacesBitsInOrder := fun v =>
  ⟨length_pack v, fun i _ => vectorBit_pack v i,
    fun i hi => (vectorBit_pack v i).trans (List.getD_eq_default v false hi)⟩

end Sys2Proof.Machine
end

section
/-! The decoder as an equivalence (R43 to R45): a word decodes to a command exactly when it has the command's fields, and
to ILLEGAL exactly when its opcode is FINISH's and its reserved argument is not zero. -/

namespace Sys2Proof

/-- The decoder inverts the fields of a command (R44). -/
@[simp] theorem decodeFields_fields (i : Instr) : decodeFields i.fields = .ok i := by
  cases i <;> rfl

/-- Decoding undoes encoding, on every command (R44). -/
@[simp] theorem decode_encode (i : Instr) : decode (encode i) = .ok i := by
  rw [decode, encode, fieldsOf_ofFields, decodeFields_fields]

/-- A list of command words written by `encode` decodes to the commands, in order. -/
theorem map_decode_map_encode (is : List Instr) : (is.map encode).map decode = is.map .ok := by
  simp only [List.map_map, Function.comp_def, decode_encode]

/-- A word decodes to the command whose fields it has. -/
theorem decode_eq_ok_iff {c : CmdWord} {i : Instr} : decode c = .ok i ↔ i.fields = fieldsOf c := by
  constructor
  · intro h
    rcases decodeFields_cases (fieldsOf c) with ⟨j, hj, hd⟩ | ⟨_, _, hd⟩
    · obtain rfl : j = i := Except.ok.inj (hd.symm.trans h)
      exact hj
    · exact nomatch hd.symm.trans h
  · intro h
    rw [decode, ← h, decodeFields_fields]

/-- ILLEGAL (R45): the opcode of FINISH with an argument that is not zero. -/
theorem decode_error_iff {c : CmdWord} :
    (∃ e, decode c = .error e) ↔ (fieldsOf c).op = opFinish ∧ (fieldsOf c).arg ≠ 0 := by
  rcases decodeFields_cases (fieldsOf c) with ⟨i, hi, hd⟩ | ⟨hop, harg, hd⟩
  · have hwf : (fieldsOf c).op = opFinish → (fieldsOf c).arg = 0 :=
      hi ▸ (Fields.wellFormed_iff i.fields).1 i.wellFormed_all
    refine iff_of_false ?_ fun ⟨hop, harg⟩ => harg (hwf hop)
    rintro ⟨e, he⟩
    exact nomatch hd.symm.trans he
  · exact ⟨fun _ => ⟨hop, harg⟩, fun _ => ⟨_, hd⟩⟩

end Sys2Proof
end

section
/-! The opcode map (R43): the mask of an opcode row keeps the opcode field, the mask of FINISH keeps the whole word. -/

namespace Sys2Proof

/-- The mask of BUFLEN, START and PUSH compares the opcode field and nothing else. -/
theorem exists_fields_iff_masked (o : BitVec 2) (c : CmdWord) :
    (∃ a, (⟨o, a⟩ : Fields) = fieldsOf c) ↔ c &&& 0x300000000 = o ++ 0#32 := by
  have hmask : c &&& 0x300000000 = (fieldsOf c).op ++ 0#32 := by
    conv_lhs => rw [← ofFields_fieldsOf c]
    exact Laws.OwnRow.and_of_op (fieldsOf c).op (fieldsOf c).arg
  rw [hmask, BitVec.append_left_inj]
  constructor
  · rintro ⟨a, h⟩
    rw [← h]
  · rintro rfl
    exact ⟨_, rfl⟩

/-- The mask of FINISH compares all 34 bits. -/
theorem finish_fields_iff_masked (c : CmdWord) :
    Instr.finish.fields = fieldsOf c ↔ c &&& 0x3FFFFFFFF = 0x300000000 := by
  rw [show (0x3FFFFFFFF : CmdWord) = BitVec.allOnes 34 from rfl, BitVec.and_allOnes]
  constructor
  · intro h
    rw [← ofFields_fieldsOf c, ← h]
    rfl
  · rintro rfl
    rfl

/-- Settles O4: a command decodes from the words with its fields, and the row's mask keeps what of them is fixed. -/
theorem matchAndMaskDecide : Obligations.MatchAndMaskDecide := by
  intro c
  simp only [decode_eq_ok_iff]
  exact ⟨exists_fields_iff_masked 0 c, exists_fields_iff_masked 1 c, exists_fields_iff_masked 2 c,
    finish_fields_iff_masked c, rfl⟩

end Sys2Proof
end

section
/-! ILLEGAL words (R45, R81): their range as numbers, and E_ENC outside phase FAULT. -/

namespace Sys2Proof.Machine

theorem acceptWord_of_error {c : CmdWord} {e : DecodeError} (h : decode c = .error e) (s : State) :
    acceptWord c s = s.illegalWord := by
  rw [acceptWord, h]

/-- The range of the ILLEGAL words (R45). -/
theorem decode_error_iff_range (c : CmdWord) :
    (∃ e, decode c = .error e) ↔ 0x300000001 ≤ c.toNat ∧ c.toNat ≤ 0x3FFFFFFFF := by
  rw [decode_error_iff, ← BitVec.toNat_inj, Ne, ← BitVec.toNat_inj, fieldsOf_op_toNat, fieldsOf_arg_toNat]
  simp only [opFinish, BitVec.ofNat_eq_ofNat, BitVec.toNat_ofNat]
  have := c.isLt
  omega

/-- Settles O5: a word from `0x300000001` on is ILLEGAL, and an accepted ILLEGAL word is a fault entry with E_ENC. -/
theorem illegalWordsRaiseEEnc : Obligations.IllegalWordsRaiseEEnc := by
  refine fun c => ⟨decode_error_iff_range c, fun hc s hs => ?_⟩
  have hmax : c.toNat ≤ 0x3FFFFFFFF := Nat.le_of_lt_succ c.isLt
  obtain ⟨e, he⟩ := (decode_error_iff_range c).2 ⟨hc, hmax⟩
  rw [step_present, acceptWord_of_error he]
  exact State.unlessFault_of_ne hs _

end Sys2Proof.Machine
end

section
/-! `card` (R49): what the assembler accepts, and the commands its words decode to. -/

namespace Sys2Proof.Machine

/-- The trailing count is `N mod 32` (R63). -/
theorem toNat_trailingCount (n : Word) : (trailingCount n).toNat = n.toNat % 32 := by
  rw [trailingCount, BitVec.toNat_and]
  exact Nat.and_two_pow_sub_one_eq_mod n.toNat 5

/-- CW is `ceil(N/32)` (R71). -/
theorem toNat_copyWords (n : Word) : (copyWords n).toNat = (n.toNat + 31) / 32 := by
  have hlt := n.isLt
  have hmod : n &&& 31 = 0 ↔ n.toNat % 32 = 0 := by
    rw [← toNat_trailingCount, ← BitVec.toNat_inj]
    rfl
  by_cases h : n &&& 31 = 0
  · have := hmod.1 h
    rw [copyWords, if_neg (not_not.2 h)]
    simp [Nat.shiftRight_eq_div_pow]
    omega
  · have := mt hmod.2 h
    rw [copyWords, if_pos h]
    simp [Nat.shiftRight_eq_div_pow]
    omega

@[simp] theorem fitsWord_iff {n : Nat} : fitsWord n = true ↔ n < 2 ^ 32 := decide_eq_true_iff

/-- `card` is accepted when its numbers fit and it has `CW(N)` word operands (R48, R49). -/
theorem card_wellFormed_iff {n : Nat} {ws : List Nat} :
    (SourceLine.card n ws).wellFormed = true ↔
      n < 2 ^ 32 ∧ (∀ w ∈ ws, w < 2 ^ 32) ∧ ws.length = (n + 31) / 32 := by
  simp only [SourceLine.wellFormed, Bool.and_eq_true, fitsWord_iff, List.all_eq_true, beq_iff_eq, toNat_copyWords,
    BitVec.toNat_ofNat, and_assoc]
  exact and_congr_right fun hn => by rw [Nat.mod_eq_of_lt hn]

theorem assembleLine_of_wellFormed {l : SourceLine} (h : l.wellFormed = true) : assembleLine l = some l.words :=
  if_pos h

theorem assembleLine_of_not_wellFormed {l : SourceLine} (h : ¬ l.wellFormed = true) : assembleLine l = none :=
  if_neg h

/-- Settles O49: the operand count decides whether the line is accepted, and decoding undoes the encoding of its
canonical sequence. -/
theorem cardExpandsToTheCanonicalSequence : Obligations.CardExpandsToTheCanonicalSequence := by
  refine fun n ws hn hws => ⟨fun hlen => ?_, fun hlen => ?_⟩
  · refine ⟨_, assembleLine_of_wellFormed (card_wellFormed_iff.2 ⟨hn, hws, hlen⟩), ?_⟩
    rw [SourceLine.words, map_decode_map_encode, canonical, List.map_map]
    rfl
  · exact assembleLine_of_not_wellFormed fun h => hlen (card_wellFormed_iff.1 h).2.2

end Sys2Proof.Machine
end

section
/-! `card.bits` (R50): reading the characters of a vector, and the packed words as operands of `card`. -/

namespace Sys2Proof.Machine

/-- The character of a vector bit in a `card.bits` line. -/
def bitChar (b : Bool) : Char := if b then '1' else '0'

@[simp] theorem parseBit_bitChar (b : Bool) : parseBit (bitChar b) = some b := by
  cases b <;> rfl

@[simp] theorem isBlank_bitChar (b : Bool) : isBlank (bitChar b) = false := by
  cases b <;> rfl

theorem bitChar_ne_semicolon (b : Bool) : bitChar b ≠ ';' := by
  cases b <;> decide

/-- The characters of a vector, read one by one, give the vector back. -/
theorem mapM_parseBit_map_bitChar (v : List Bool) : (v.map bitChar).mapM parseBit = some v := by
  induction v with
  | nil => rfl
  | cons b v ih => simp [ih]

theorem stripComment_of_forall_ne {l : List Char} (h : ∀ c ∈ l, c ≠ ';') : stripComment l = l :=
  List.takeWhile_eq_self_iff.2 fun c hc => bne_iff_ne.2 (h c hc)

theorem trimLeft_cons_of_not_blank {c : Char} (h : isBlank c = false) (l : List Char) : trimLeft (c :: l) = c :: l :=
  List.dropWhile_cons_of_neg (by simp [h])

theorem trim_cons_of_blank {c : Char} (h : isBlank c = true) (l : List Char) : trim (c :: l) = trim l := by
  have hleft : trimLeft (c :: l) = trimLeft l := List.dropWhile_cons_of_pos h
  rw [trim, hleft, trim]

/-- Trimming keeps what stands between the first and the last character that is no blank. -/
theorem trim_cons_append_singleton {c d : Char} (hc : isBlank c = false) (hd : isBlank d = false) (l : List Char) :
    trim (c :: (l ++ [d])) = c :: (l ++ [d]) := by
  rw [trim, trimLeft_cons_of_not_blank hc]
  simp [trimLeft_cons_of_not_blank hd]

theorem trimLeft_of_no_blank {l : List Char} (h : ∀ c ∈ l, isBlank c = false) : trimLeft l = l := by
  cases l with
  | nil => rfl
  | cons c l => exact trimLeft_cons_of_not_blank (h c List.mem_cons_self) l

/-- Trimming leaves a text without blanks as it is. -/
theorem trim_of_no_blank {l : List Char} (h : ∀ c ∈ l, isBlank c = false) : trim l = l := by
  have hreverse : ∀ c ∈ l.reverse, isBlank c = false := fun c hc => h c (List.mem_reverse.1 hc)
  rw [trim, trimLeft_of_no_blank h, trimLeft_of_no_blank hreverse, List.reverse_reverse]

/-- A line that, without its comment and outer blanks, is the mnemonic and then a vector's characters, parses to
`card.bits` of the vector. -/
theorem parseLine_cardBits {line l : List Char} {v : List Bool} (hl : trim (stripComment line) = l)
    (hmnemonic : l.takeWhile (!isBlank ·) = "card.bits".toList)
    (hrest : trim (l.dropWhile (!isBlank ·)) = v.map bitChar) :
    parseLine line = some (some (.cardBits v)) := by
  have hne : l ≠ [] := by
    rintro rfl
    exact absurd hmnemonic (by decide)
  have hlower : "card.bits".toList.map lowerChar = "card.bits".toList := by decide
  simp only [parseLine, hl, hmnemonic, hrest, hlower, hne, mapM_parseBit_map_bitChar, if_false,
    if_true, Option.map_some]

/-- The `card.bits` line of a vector: the mnemonic, a space, the bits with index 0 first (R50). -/
def cardBitsLine (v : List Bool) : List Char := "card.bits ".toList ++ v.map bitChar

theorem stripComment_cardBitsLine (v : List Bool) : stripComment (cardBitsLine v) = cardBitsLine v := by
  refine stripComment_of_forall_ne fun c hc => ?_
  rcases List.mem_append.1 hc with hc | hc
  · rintro rfl
    simp at hc
  · obtain ⟨b, -, rfl⟩ := List.mem_map.1 hc
    exact bitChar_ne_semicolon b

theorem trim_map_bitChar (v : List Bool) : trim (v.map bitChar) = v.map bitChar :=
  trim_of_no_blank (List.forall_mem_map.2 fun b _ => isBlank_bitChar b)

/-- A line that ends in a bit has no blank at either end. -/
theorem trim_cardBitsLine_concat (v : List Bool) (b : Bool) :
    trim (cardBitsLine (v ++ [b])) = cardBitsLine (v ++ [b]) := by
  have hhead : cardBitsLine (v ++ [b]) =
      'c' :: (['a', 'r', 'd', '.', 'b', 'i', 't', 's', ' '] ++ (v ++ [b]).map bitChar) := rfl
  rw [hhead, List.map_append, ← List.append_assoc]
  exact trim_cons_append_singleton rfl (isBlank_bitChar b) _

/-- Only the line of the empty vector ends in a blank; it trims to the bare mnemonic. -/
theorem parseLine_cardBitsLine (v : List Bool) : parseLine (cardBitsLine v) = some (some (.cardBits v)) := by
  rcases v.eq_nil_or_concat' with rfl | ⟨u, b, rfl⟩
  · decide
  · refine parseLine_cardBits (l := cardBitsLine (u ++ [b])) ?_ rfl ?_
    · rw [stripComment_cardBitsLine, trim_cardBitsLine_concat]
    · exact (trim_cons_of_blank rfl _).trans (trim_map_bitChar _)

/-- `card.bits` is accepted, and assembles, as `card` of the length and the packed words (R50). -/
theorem assembleLine_cardBits {v : List Bool} (hv : v.length < 2 ^ 32) :
    assembleLine (.cardBits v) = assembleLine (.card v.length ((pack v).map BitVec.toNat)) := by
  have hfits : ∀ w ∈ (pack v).map BitVec.toNat, w < 2 ^ 32 := by
    intro w hw
    obtain ⟨x, -, rfl⟩ := List.mem_map.1 hw
    exact x.isLt
  have hlength : ((pack v).map BitVec.toNat).length = (v.length + 31) / 32 := by simp
  have hwords : ((pack v).map BitVec.toNat).map (BitVec.ofNat 32) = pack v := by
    simp [Function.comp_def]
  rw [assembleLine_of_wellFormed (l := .cardBits v) (fitsWord_iff.2 hv),
    assembleLine_of_wellFormed (card_wellFormed_iff.2 ⟨hv, hfits, hlength⟩), SourceLine.words, SourceLine.words, hwords]

/-- Settles O50: reading the line undoes writing the vector's characters, and the two lines have the same words. -/
theorem cardBitsReadsIndexZeroFirst : Obligations.CardBitsReadsIndexZeroFirst :=
  fun v hv => ⟨parseLine_cardBitsLine v, assembleLine_cardBits hv⟩

end Sys2Proof.Machine
end

section
/-! BUFLEN (R53): its command word, its source line, and the state it leaves. -/

namespace Sys2Proof.Machine

/-- The number of a command's word: `op * 2^32 + arg` (R41). -/
theorem toNat_encode (i : Instr) : (encode i).toNat = i.op.toNat * 2 ^ 32 + i.arg.toNat :=
  ofFields_toNat i.fields

/-- BufferLength is `floor(n/32) + 1` (R52): the sum does not wrap. -/
theorem toNat_bufferLength (n : Word) : (bufferLength n).toNat = n.toNat / 32 + 1 := by
  have hlt := n.isLt
  have hone : (1 : Word).toNat = 1 := rfl
  rw [bufferLength, BitVec.toNat_add, BitVec.toNat_ushiftRight, Nat.shiftRight_eq_div_pow, hone]
  exact Nat.mod_eq_of_lt (by omega)

/-- The line `buflen n` of a number that fits is accepted, and is the one word of the command (R48). -/
theorem assembleLine_buflen (n : Word) : assembleLine (.buflen n.toNat) = some [encode (.buflen n)] := by
  rw [assembleLine_of_wellFormed (l := .buflen n.toNat) (fitsWord_iff.2 n.isLt), SourceLine.words,
    BitVec.ofNat_toNat, BitVec.setWidth_eq]

theorem exec_buflen_of_fault {s : State} (h : s.phase = .fault) (n : Word) : exec (.buflen n) s = .next s :=
  State.unlessFault_of_fault h _

theorem exec_buflen_of_ne {s : State} (h : s.phase ≠ .fault) (n : Word) :
    exec (.buflen n) s = .next (s.setBlen (bufferLength n)) :=
  State.unlessFault_of_ne h _

/-- Settles O18: outside FAULT the next state is `setBlen` of BufferLength, which no other register depends on. -/
theorem buflenWritesOnlyBlen : Obligations.BuflenWritesOnlyBlen := by
  refine fun n s => ⟨⟨?_, assembleLine_buflen n⟩, fun h => exec_buflen_of_fault h n, fun h => ?_⟩
  · simp [toNat_encode, Instr.op, Instr.arg]
  · exact ⟨s.setBlen (bufferLength n), exec_buflen_of_ne h n, toNat_bufferLength n, rfl⟩

end Sys2Proof.Machine
end

section
/-! CW against BufferLength (R71), by their values as natural numbers. -/

namespace Sys2Proof.Machine

/-- A word that is not 0 has its predecessor one below it: the subtraction of R11 does not wrap. -/
theorem toNat_sub_one {w : Word} (h : 1 ≤ w.toNat) : (w - 1).toNat = w.toNat - 1 :=
  BitVec.toNat_sub_of_le (BitVec.le_def.2 h)

/-- Settles O8: CW is `ceil(N/32)` and WC is `floor(N/32) + 1`, and the two cases compare these numbers. -/
theorem copyWordsIsCeiling : Obligations.CopyWordsIsCeiling := by
  intro n
  have hcopy := toNat_copyWords n
  have hlength := toNat_bufferLength n
  refine ⟨hcopy, fun hmod => ?_, fun hmod => ?_⟩
  · apply BitVec.eq_of_toNat_eq
    omega
  · apply BitVec.eq_of_toNat_eq
    rw [toNat_sub_one (by omega)]
    omega

end Sys2Proof.Machine
end

section
/-! The source line of a command (R48): it is accepted and is the command's one word. -/

namespace Sys2Proof.Machine

/-- The source line that names a command, its operand written as a number. -/
def lineOf : Instr → SourceLine
  | .buflen n => .buflen n.toNat
  | .start n => .start n.toNat
  | .push w => .push w.toNat
  | .finish => .finish

/-- The line of every command assembles to the command's word. -/
theorem assembleLine_lineOf (i : Instr) : assembleLine (lineOf i) = some [encode i] := by
  have hfits (w : Word) : fitsWord w.toNat = true := fitsWord_iff.2 w.isLt
  have hwf : (lineOf i).wellFormed = true := by
    cases i with
    | buflen n => exact hfits n
    | start n => exact hfits n
    | push w => exact hfits w
    | finish => rfl
  have hwords : (lineOf i).words = [encode i] := by
    cases i <;> simp [lineOf, SourceLine.words]
  rw [assembleLine_of_wellFormed hwf, hwords]

end Sys2Proof.Machine
end

section
/-! When START, PUSH and FINISH are in sequence (R82), with CW and WC as natural numbers, and E_SEQ when they are not. -/

namespace Sys2Proof.Machine

theorem State.startInSequence_iff {s : State} : s.startInSequence = true ↔ s.phase ≠ .load := bne_iff_ne

theorem State.pushInSequence_iff {s : State} :
    s.pushInSequence = true ↔ s.phase = .load ∧ s.idx.toNat < (s.len.toNat + 31) / 32 := by
  rw [State.pushInSequence, Bool.and_eq_true, beq_iff_eq, decide_eq_true_iff, BitVec.lt_def, toNat_copyWords]

theorem State.finishInSequence_iff {s : State} :
    s.finishInSequence = true ↔ s.phase = .load ∧ s.idx.toNat = (s.len.toNat + 31) / 32 := by
  rw [State.finishInSequence, Bool.and_eq_true, beq_iff_eq, beq_iff_eq, ← BitVec.toNat_inj, toNat_copyWords]

/-- The capacity check (R83). -/
theorem State.lengthFits_iff {s : State} {n : Word} : s.lengthFits n = true ↔ n.toNat / 32 + 1 ≤ s.cfg.bufWords := by
  rw [State.lengthFits, decide_eq_true_iff, toNat_bufferLength]

/-- In phases IDLE and DONE the engine is neither faulted nor loading. -/
theorem ne_fault_and_ne_load {p : Phase} (h : p = .idle ∨ p = .done) : p ≠ .fault ∧ p ≠ .load := by
  rcases h with rfl | rfl <;> decide

theorem exec_start_of_not_inSequence {s : State} (hf : s.phase ≠ .fault) (h : ¬ s.startInSequence = true) (n : Word) :
    exec (.start n) s = .next (s.raise .seq) :=
  (State.unlessFault_of_ne hf _).trans (if_neg h)

theorem exec_push_of_not_inSequence {s : State} (hf : s.phase ≠ .fault) (h : ¬ s.pushInSequence = true) (w : Word) :
    exec (.push w) s = .next (s.raise .seq) :=
  (State.unlessFault_of_ne hf _).trans (if_neg h)

theorem exec_finish_of_not_inSequence {s : State} (hf : s.phase ≠ .fault) (h : ¬ s.finishInSequence = true) :
    exec .finish s = .next (s.raise .seq) :=
  (State.unlessFault_of_ne hf _).trans (if_neg h)

end Sys2Proof.Machine
end

section
/-! START (R72): the capacity fault and the opened operation. -/

namespace Sys2Proof.Machine

/-- START in sequence with a length that needs more words than there are: E_CAP. -/
theorem exec_start_of_not_fits {s : State} (hp : s.phase = .idle ∨ s.phase = .done) {n : Word}
    (h : ¬ s.lengthFits n = true) : exec (.start n) s = .next (s.raise .cap) := by
  obtain ⟨hf, hl⟩ := ne_fault_and_ne_load hp
  rw [exec, execStart, State.unlessFault_of_ne hf, if_pos (State.startInSequence_iff.2 hl), if_neg h]

/-- An accepted START: the register writes, and the words `0 .. WC-1` filled with zeros. -/
theorem exec_start_of_fits {s : State} (hp : s.phase = .idle ∨ s.phase = .done) {n : Word}
    (h : s.lengthFits n = true) :
    exec (.start n) s = .next ((s.openOperation n).setBuf (s.buf.zeroed (bufferLength n).toNat)) := by
  obtain ⟨hf, hl⟩ := ne_fault_and_ne_load hp
  have hfill := State.zeroFill_eq (s.openOperation n) (k := (bufferLength n).toNat) (of_decide_eq_true h)
  rw [exec, execStart, State.unlessFault_of_ne hf, if_pos (State.startInSequence_iff.2 hl), if_pos h, hfill]
  rfl

/-- Settles O19: one equation of `exec` per case, and the words after the zero fill by `State.word_zeroed`. -/
theorem startOpensAnOperation : Obligations.StartOpensAnOperation := by
  refine fun n s => ⟨⟨?encoding, assembleLine_lineOf (.start n)⟩, fun hp => State.unlessFault_of_fault hp _,
    fun hp => ?load, fun hp hcap => ?capacity, fun hp hfit => ?accepted⟩
  case encoding => simp [toNat_encode, Instr.op, Instr.arg]
  case load =>
    exact exec_start_of_not_inSequence (by simp [hp]) (mt State.startInSequence_iff.1 (not_not.2 hp)) n
  case capacity => exact exec_start_of_not_fits hp (mt State.lengthFits_iff.1 hcap.not_ge)
  case accepted =>
    refine ⟨_, exec_start_of_fits hp (State.lengthFits_iff.2 hfit), rfl, toNat_bufferLength n,
      fun i hi => ?_, fun i hi => ?_⟩
    · exact (State.word_zeroed (s.openOperation n) _ i).trans (if_pos hi)
    · exact (State.word_zeroed (s.openOperation n) _ i).trans (if_neg hi.not_gt)

end Sys2Proof.Machine
end

section
/-! PUSH (R73): the one word it writes. -/

namespace Sys2Proof.Machine

/-- An accepted PUSH whose word exists: the write at IDX, then IDX plus one. -/
theorem exec_push_of_inSequence {s : State} (h : s.pushInSequence = true) (hi : s.pushIndex < s.cfg.bufWords)
    (w : Word) : exec (.push w) s = .next (s.setBuf (s.buf.write s.pushIndex w)).advanceIndex := by
  have hf : s.phase ≠ .fault := by simp [(State.pushInSequence_iff.1 h).1]
  rw [exec, execPush, State.unlessFault_of_ne hf, if_pos h, State.memWrite_of_lt hi]

/-- The increment of IDX does not wrap while a word is missing: CW is at most `2^27`. -/
theorem toNat_idx_add_one {s : State} (h : s.idx.toNat < (s.len.toNat + 31) / 32) :
    (s.idx + 1).toNat = s.idx.toNat + 1 := by
  have hlt := s.len.isLt
  have hone : (1 : Word).toNat = 1 := rfl
  rw [BitVec.toNat_add, hone]
  exact Nat.mod_eq_of_lt (by omega)

/-- Settles O21: one equation of `exec` per case, and the accepted case by read after write. -/
theorem pushWritesTheNextWord : Obligations.PushWritesTheNextWord := by
  refine fun w s => ⟨⟨?encoding, assembleLine_lineOf (.push w)⟩, fun hp => State.unlessFault_of_fault hp _,
    fun hp => ?closed, fun hp hfull => ?full, fun hp hidx hi => ?accepted⟩
  case encoding => simp [toNat_encode, Instr.op, Instr.arg]
  case closed =>
    obtain ⟨hf, hl⟩ := ne_fault_and_ne_load hp
    exact exec_push_of_not_inSequence hf (fun h => hl (State.pushInSequence_iff.1 h).1) w
  case full =>
    exact exec_push_of_not_inSequence (by simp [hp]) (fun h => hfull.not_gt (State.pushInSequence_iff.1 h).2) w
  case accepted =>
    exact ⟨_, exec_push_of_inSequence (State.pushInSequence_iff.2 ⟨hp, hidx⟩) hi w, rfl, rfl, toNat_idx_add_one hidx,
      State.word_write_same s _ w, fun i hne => State.word_write_other s w hne⟩

end Sys2Proof.Machine
end

section
/-! FINISH (R74): the reserved argument, the masked word and the sum. -/

namespace Sys2Proof.Machine

/-- ACCSTEP over words adds the sum of their counts (R66, R67). -/
theorem foldl_accStep (b : List Word) (acc : Word) : b.foldl accStep acc = acc + (b.map pc32).sum := by
  induction b generalizing acc with
  | nil => simp
  | cons x b ih => rw [List.foldl_cons, ih, accStep, List.map_cons, List.sum_cons, BitVec.add_assoc]

/-- A FINISH word whose reserved argument is not zero is ILLEGAL, and raises E_ENC (R45, R81). -/
theorem acceptWord_finish_reserved {s : State} (hf : s.phase ≠ .fault) {a : Word} (ha : a ≠ 0) :
    acceptWord (ofFields { op := 3, arg := a }) s = .next (s.raise .enc) := by
  obtain ⟨e, he⟩ : ∃ e, decode (ofFields { op := 3, arg := a }) = .error e := by
    rw [decode_error_iff, fieldsOf_ofFields]
    exact ⟨rfl, ha⟩
  rw [acceptWord_of_error he]
  exact State.unlessFault_of_ne hf _

/-- The last word's index, when there is a word (R65). -/
theorem State.lastIndex_eq {s : State} (h : 1 ≤ s.wc.toNat) : s.lastIndex = s.wc.toNat - 1 := toNat_sub_one h

/-- An accepted FINISH whose words exist: the mask, the sum over the masked words, and the close. -/
theorem exec_finish_of_inSequence {s : State} (h : s.finishInSequence = true) (hpos : 1 ≤ s.wc.toNat)
    (hfit : s.wc.toNat ≤ s.cfg.bufWords) :
    exec .finish s = .next (s.masked.closeOperation ((s.masked.words s.wc.toNat).foldl accStep s.acc)) := by
  obtain ⟨hp, hidx⟩ := State.finishInSequence_iff.1 h
  have hcopy : s.idx = copyWords s.len := BitVec.eq_of_toNat_eq (hidx.trans (toNat_copyWords s.len).symm)
  have hlast : s.lastIndex < s.cfg.bufWords := by
    rw [State.lastIndex_eq hpos]
    omega
  exact execFinish_of_le hp hcopy hlast hfit

/-- Settles O22: one equation of `exec` per case; in the accepted one the words are those of `State.masked`, and the fold
over them is a sum. -/
theorem finishMasksAndCounts : Obligations.FinishMasksAndCounts := by
  refine fun s => ⟨⟨rfl, assembleLine_lineOf .finish⟩, fun hf a ha => acceptWord_finish_reserved hf ha,
    fun hp => State.unlessFault_of_fault hp _, fun hp => ?closed, fun hp hne => ?incomplete,
    fun hp hidx hpos hfit => ?accepted⟩
  case closed =>
    obtain ⟨hf, hl⟩ := ne_fault_and_ne_load hp
    exact exec_finish_of_not_inSequence hf fun h => hl (State.finishInSequence_iff.1 h).1
  case incomplete =>
    exact exec_finish_of_not_inSequence (by simp [hp]) fun h => hne (State.finishInSequence_iff.1 h).2
  case accepted =>
    refine ⟨_, exec_finish_of_inSequence (State.finishInSequence_iff.2 ⟨hp, hidx⟩) hpos hfit,
      State.lastIndex_eq hpos, rfl, ?_, fun i hne => ?_, foldl_accStep _ _, fun hacc => ?_⟩
    · exact (State.masked_word s s.lastIndex).trans (if_pos rfl)
    · exact (State.masked_word s i).trans (if_neg hne)
    · rw [hacc]
      rfl

end Sys2Proof.Machine
end

section
/-! The sequence check (R82) of every command in one place, and what a command can answer: E_SEQ, E_CAP, or a next state
outside FAULT. -/

namespace Sys2Proof.Machine

/-- The model's sequence check of a command. BUFLEN has none (R53). -/
def State.inSequence (s : State) : Instr → Bool
  | .buflen _ => true
  | .start _ => s.startInSequence
  | .push _ => s.pushInSequence
  | .finish => s.finishInSequence

/-- PUSH is in sequence while IDX is below CW; the words are compared as the model compares them. -/
theorem State.pushInSequence_iff_copyWords {s : State} :
    s.pushInSequence = true ↔ s.phase = .load ∧ s.idx < copyWords s.len := by
  rw [State.pushInSequence, Bool.and_eq_true, beq_iff_eq, decide_eq_true_iff]

/-- FINISH is in sequence when IDX is CW. -/
theorem State.finishInSequence_iff_copyWords {s : State} :
    s.finishInSequence = true ↔ s.phase = .load ∧ s.idx = copyWords s.len := by
  rw [State.finishInSequence, Bool.and_eq_true, beq_iff_eq, beq_iff_eq]

/-- Outside FAULT a command that fails the sequence check raises E_SEQ. -/
theorem exec_of_not_inSequence {s : State} (hf : s.phase ≠ .fault) {i : Instr} (h : ¬ s.inSequence i = true) :
    exec i s = .next (s.raise .seq) := by
  cases i with
  | buflen n => exact absurd rfl h
  | start n => exact exec_start_of_not_inSequence hf h n
  | push w => exact exec_push_of_not_inSequence hf h w
  | finish => exact exec_finish_of_not_inSequence hf h

/-- A command that passes the sequence check raises E_CAP, or its next state is not in FAULT. -/
theorem exec_cases_of_inSequence {s t : State} (hf : s.phase ≠ .fault) {i : Instr} (hq : s.inSequence i = true)
    (h : exec i s = .next t) :
    (∃ n, i = .start n ∧ ¬ s.lengthFits n = true ∧ t = s.raise .cap) ∨ t.phase ≠ .fault := by
  cases i with
  | buflen n =>
    rcases execBuflen_cases h with ⟨hf', -⟩ | ⟨-, rfl⟩
    · exact absurd hf' hf
    · exact .inr hf
  | start n =>
    have hl : s.phase ≠ .load := State.startInSequence_iff.1 hq
    rcases execStart_cases h with ⟨hf', -⟩ | ⟨hl', -⟩ | ⟨-, hcap, ht⟩ | ⟨-, -, rfl⟩
    · exact absurd hf' hf
    · exact absurd hl' hl
    · exact .inl ⟨n, rfl, fun hfit => hcap.not_ge (of_decide_eq_true hfit), ht⟩
    · exact .inr (by simp)
  | push w =>
    rcases execPush_cases h with ⟨hf', -⟩ | ⟨-, hq', -⟩ | ⟨-, -, -, rfl⟩
    · exact absurd hf' hf
    · exact absurd (State.pushInSequence_iff_copyWords.1 hq) hq'
    · exact .inr hf
  | finish =>
    rcases execFinish_cases h with ⟨hf', -⟩ | ⟨-, hq', -⟩ | ⟨-, -, -, -, rfl⟩
    · exact absurd hf' hf
    · exact absurd (State.finishInSequence_iff_copyWords.1 hq) hq'
    · exact .inr (by simp)

/-- Fault entries with different codes are different states. -/
theorem State.raise_inj {s : State} {c d : Ecode} (h : s.raise c = s.raise d) : c = d := congrArg State.ecode h

/-- E_SEQ is raised exactly by a command that fails the sequence check (R82). -/
theorem exec_eq_raise_seq_iff {s : State} (hf : s.phase ≠ .fault) {i : Instr} :
    exec i s = .next (s.raise .seq) ↔ ¬ s.inSequence i = true := by
  refine ⟨fun h hq => ?_, exec_of_not_inSequence hf⟩
  rcases exec_cases_of_inSequence hf hq h with ⟨n, -, -, ht⟩ | ht
  · exact nomatch State.raise_inj ht
  · exact ht rfl

/-- Outside FAULT the engine is in IDLE or DONE when no operation is open. -/
theorem idle_or_done_iff {p : Phase} (hf : p ≠ .fault) : p = .idle ∨ p = .done ↔ p ≠ .load := by
  cases p with
  | fault => exact absurd rfl hf
  | idle | load | done => decide

/-- E_CAP is raised exactly by a START that passes the sequence check with a length that does not fit (R83). -/
theorem exec_eq_raise_cap_iff {s : State} (hf : s.phase ≠ .fault) {i : Instr} :
    exec i s = .next (s.raise .cap) ↔ ∃ n, i = .start n ∧ s.startInSequence = true ∧ ¬ s.lengthFits n = true := by
  constructor
  · intro h
    by_cases hq : s.inSequence i = true
    · rcases exec_cases_of_inSequence hf hq h with ⟨n, rfl, hn, -⟩ | ht
      · exact ⟨n, rfl, hq, hn⟩
      · exact absurd rfl ht
    · have hseq : s.raise .cap = s.raise .seq := Host.Outcome.next.inj (h.symm.trans (exec_of_not_inSequence hf hq))
      exact nomatch State.raise_inj hseq
  · rintro ⟨n, rfl, hq, hn⟩
    exact exec_start_of_not_fits ((idle_or_done_iff hf).2 (State.startInSequence_iff.1 hq)) hn

end Sys2Proof.Machine
end

section
/-! E_SEQ and E_CAP in the words of R82 and R83. -/

namespace Sys2Proof.Machine

/-- Under R26 item 2 the commands that fail the sequence check are the five cases of R82: IDX never passes CW. -/
theorem State.not_inSequence_iff {s : State} (hinv : s.LoadInv) (hf : s.phase ≠ .fault) {i : Instr} :
    ¬ s.inSequence i = true ↔ s.OutOfSequence i := by
  cases i with
  | buflen n => exact iff_of_false (not_not.2 rfl) id
  | start n => exact (not_congr State.startInSequence_iff).trans not_not
  | push w =>
    refine (not_congr State.pushInSequence_iff_copyWords).trans ?_
    by_cases hl : s.phase = .load
    · obtain ⟨-, hle, -⟩ := hinv hl
      have hend : copyWords s.len ≤ s.idx ↔ s.idx = copyWords s.len :=
        ⟨BitVec.le_antisymm hle, fun h => BitVec.le_of_eq h.symm⟩
      simp [State.OutOfSequence, hl, hend]
    · have hp : s.phase = .idle ∨ s.phase = .done := (idle_or_done_iff hf).2 hl
      simp [State.OutOfSequence, hl, hp]
  | finish =>
    refine (not_congr State.finishInSequence_iff_copyWords).trans ?_
    by_cases hl : s.phase = .load
    · obtain ⟨-, hle, -⟩ := hinv hl
      have hearly : s.idx ≠ copyWords s.len ↔ s.idx < copyWords s.len :=
        ⟨BitVec.lt_of_le_ne hle, BitVec.ne_of_lt⟩
      simpa [State.OutOfSequence, hl] using hearly
    · have hp : s.phase = .idle ∨ s.phase = .done := (idle_or_done_iff hf).2 hl
      simp [State.OutOfSequence, hl, hp]

/-- Settles O27: E_SEQ answers a failed sequence check, and these are the five cases. -/
theorem sequenceFaultsExactly : Obligations.SequenceFaultsExactly := fun _ _ hinv hf =>
  (exec_eq_raise_seq_iff hf).trans (State.not_inSequence_iff hinv hf)

/-- Settles O28: E_CAP answers a START in sequence whose length does not fit, with both checks read as R83 has them. -/
theorem capacityFaultsExactly : Obligations.CapacityFaultsExactly := by
  intro i s hf
  refine (exec_eq_raise_cap_iff hf).trans (exists_congr fun n => and_congr_right fun _ => and_congr ?_ ?_)
  · rw [State.startInSequence_iff, idle_or_done_iff hf]
  · rw [State.lengthFits_iff, not_le]

end Sys2Proof.Machine
end

section
/-! Phase FAULT discards every word (R85), and the order of the checks (R88). -/

namespace Sys2Proof.Machine

/-- In phase FAULT a command is discarded. -/
theorem exec_of_fault {s : State} (h : s.phase = .fault) (i : Instr) : exec i s = .next s := by
  cases i <;> exact State.unlessFault_of_fault h _

/-- In phase FAULT every accepted word is discarded, legal or ILLEGAL. -/
theorem acceptWord_of_fault {s : State} (h : s.phase = .fault) (c : CmdWord) : acceptWord c s = .next s := by
  rcases acceptWord_cases c s with ⟨i, -, hc⟩ | ⟨e, -, hc⟩
  · exact hc.trans (exec_of_fault h i)
  · exact hc.trans (State.unlessFault_of_fault h _)

theorem acceptWord_of_ok {c : CmdWord} {i : Instr} (h : decode c = .ok i) (s : State) : acceptWord c s = exec i s := by
  rw [acceptWord, h]

/-- In phase FAULT any number of accepted words changes nothing. -/
theorem acceptAll_of_fault {s : State} (h : s.phase = .fault) (cs : List CmdWord) : acceptAll cs s = .next s := by
  induction cs with
  | nil => rfl
  | cons c cs ih =>
    rw [acceptAll, acceptWord_of_fault h]
    exact ih

/-- Settles O29: a presented word is accepted, and each check of the order has its equation of `acceptWord` or `exec`. -/
theorem faultsInPriorityOrder : Obligations.FaultsInPriorityOrder := by
  intro c s hinv
  rw [step_present]
  refine ⟨fun hf => acceptWord_of_fault hf c, fun hf ⟨e, he⟩ => ?illegal, fun hf i hi hout => ?sequence,
    fun hf n hn hin hcap => ?capacity⟩
  case illegal => exact (acceptWord_of_error he s).trans (State.unlessFault_of_ne hf _)
  case sequence =>
    exact (acceptWord_of_ok hi s).trans (exec_of_not_inSequence hf ((State.not_inSequence_iff hinv hf).2 hout))
  case capacity =>
    have hp : s.phase = .idle ∨ s.phase = .done := (idle_or_done_iff hf).2 hin
    exact (acceptWord_of_ok hn s).trans (exec_start_of_not_fits hp (mt State.lengthFits_iff.1 hcap.not_ge))

/-- Settles O31: a run over words accepts them one after the other. -/
theorem faultPhaseDiscardsEveryWord : Obligations.FaultPhaseDiscardsEveryWord := fun s cs hf =>
  ⟨(runWords_eq_acceptAll s cs).trans (acceptAll_of_fault hf cs), rfl⟩

end Sys2Proof.Machine
end

section
/-! Precise faults (R84): what a word or a step that enters phase FAULT writes. -/

namespace Sys2Proof.Machine

/-- A command that enters FAULT is a fault entry with a code of the spec, and no more. -/
theorem exec_enters_fault {i : Instr} {s t : State} (h : exec i s = .next t) (hf : s.phase ≠ .fault)
    (ht : t.phase = .fault) : ∃ code : Ecode, code ≠ .none ∧ t = s.raise code := by
  by_cases hq : s.inSequence i = true
  · rcases exec_cases_of_inSequence hf hq h with ⟨n, -, -, hcap⟩ | hne
    · exact ⟨.cap, by decide, hcap⟩
    · exact absurd ht hne
  · exact ⟨.seq, by decide, Host.Outcome.next.inj (h.symm.trans (exec_of_not_inSequence hf hq))⟩

/-- The same for a word, which may be ILLEGAL. -/
theorem acceptWord_enters_fault {c : CmdWord} {s t : State} (h : acceptWord c s = .next t) (hf : s.phase ≠ .fault)
    (ht : t.phase = .fault) : ∃ code : Ecode, code ≠ .none ∧ t = s.raise code := by
  rcases acceptWord_cases c s with ⟨i, -, hc⟩ | ⟨e, -, hc⟩
  · exact exec_enters_fault (hc.symm.trans h) hf ht
  · rcases State.illegalWord_cases (hc.symm.trans h) with ⟨hf', -⟩ | ⟨-, henc⟩
    · exact absurd hf' hf
    · exact ⟨.enc, by decide, henc⟩

/-- Settles O30: of the four kinds of step only an accepted word enters FAULT. -/
theorem faultsArePrecise : Obligations.FaultsArePrecise := by
  intro s t h hf ht
  rcases step_cases s with ⟨-, hs⟩ | ⟨e, rest, hedges, ⟨-, hs⟩ | ⟨-, -, hs⟩ | ⟨-, -, hs⟩⟩
  · obtain rfl := Host.Outcome.next.inj (hs.symm.trans h)
    exact absurd ht hf
  · obtain rfl := Host.Outcome.next.inj (hs.symm.trans h)
    exact nomatch ht
  · obtain rfl := Host.Outcome.next.inj (hs.symm.trans h)
    exact absurd ht hf
  · obtain ⟨code, hcode, rfl⟩ := acceptWord_enters_fault (hs.symm.trans h) hf ht
    exact ⟨code, hcode, by rw [hedges]; rfl⟩

end Sys2Proof.Machine
end

section
/-! Reset (R96): what a reset edge writes, and that phase FAULT is left by no other edge. -/

namespace Sys2Proof.Machine

/-- After a reset edge the ports show the reset values, whatever the state was. -/
@[simp] theorem State.resetEdge_ports (s : State) :
    s.resetEdge.ports = { cmdReady := true, countO := 0, blenO := 0, phaseO := 0, ecodeO := 0 } := rfl

/-- In phase FAULT a step without reset can change the inputs still to come only: a word presented at it is discarded
(R85). -/
theorem step_of_fault_of_not_resets {s : State} (hf : s.phase = .fault) (hr : ¬ s.Resets) :
    ∃ es, step s = .next (s.setEdges es) := by
  rcases step_cases s with ⟨-, hs⟩ | ⟨e, rest, hedges, ⟨hrst, -⟩ | ⟨-, -, hs⟩ | ⟨-, -, hs⟩⟩
  · exact ⟨s.edges, hs⟩
  · exact absurd ⟨e, rest, hedges, hrst⟩ hr
  · exact ⟨rest, hs⟩
  · have hf' : (s.setEdges rest).phase = .fault := hf
    exact ⟨rest, hs.trans (acceptWord_of_fault hf' e.cmd)⟩

/-- Phase FAULT is kept by every step that is not a reset edge. -/
theorem step_keeps_fault {s t : State} (hf : s.phase = .fault) (hr : ¬ s.Resets) (h : step s = .next t) :
    t.phase = .fault := by
  obtain ⟨es, hs⟩ := step_of_fault_of_not_resets hf hr
  obtain rfl := Host.Outcome.next.inj (hs.symm.trans h)
  exact hf

/-- Settles O35: the reset edge is taken before the presented word is looked at, and FAULT is kept without it. -/
theorem resetEdgeGivesTheResetState : Obligations.ResetEdgeGivesTheResetState := by
  refine ⟨fun s e rest hedges hrst => ⟨(s.setEdges rest).resetEdge, step_reset hedges hrst, ?registers⟩,
    fun s t hf h ht => ?onlyReset⟩
  case registers => simp
  case onlyReset =>
    by_contra hr
    exact ht (step_keeps_fault hf hr h)

end Sys2Proof.Machine
end

section
/-! Decoding and encoding (R44): the round trip, the argument as a number (R42), the number of ILLEGAL words (R45). -/

namespace Sys2Proof

/-- A word that decodes to a command is that command's word. -/
theorem encode_eq_of_decode {c : CmdWord} {i : Instr} (h : decode c = .ok i) : encode i = c := by
  rw [encode, decode_eq_ok_iff.1 h, ofFields_fieldsOf]

/-- Settles O2: `encode` writes the fields that `decode` reads, and every command is well formed. -/
theorem decodeAndEncodeAgree : Obligations.DecodeAndEncodeAgree :=
  ⟨fun i _ => decode_encode i, fun _ i h => ⟨i.wellFormed_all, encode_eq_of_decode h⟩⟩

/-- A word has the fields `o` and `a` exactly when they are its two parts as a number (R41). -/
theorem eq_fieldsOf_iff {o : BitVec 2} {a : Word} {c : CmdWord} :
    (⟨o, a⟩ : Fields) = fieldsOf c ↔ c.toNat / 2 ^ 32 = o.toNat ∧ c.toNat % 2 ^ 32 = a.toNat := by
  rw [← fieldsOf_op_toNat, ← fieldsOf_arg_toNat, BitVec.toNat_inj, BitVec.toNat_inj]
  constructor
  · intro h
    exact ⟨congrArg Fields.op h.symm, congrArg Fields.arg h.symm⟩
  · rintro ⟨ho, ha⟩
    rw [← ho, ← ha]

/-- The argument of a word, as the number `c mod 2^32`. -/
theorem toNat_ofNat_mod (c : CmdWord) : c.toNat % 2 ^ 32 = (BitVec.ofNat 32 (c.toNat % 2 ^ 32)).toNat := by
  rw [BitVec.toNat_ofNat, Nat.mod_mod]

/-- Settles O3: each clause compares the two fields of the command with the two parts of the word. -/
theorem argumentIsUsedAsItStands : Obligations.ArgumentIsUsedAsItStands := by
  intro c
  simp only [decode_eq_ok_iff]
  exact ⟨fun h => eq_fieldsOf_iff.2 ⟨h, toNat_ofNat_mod c⟩, fun h => eq_fieldsOf_iff.2 ⟨h, toNat_ofNat_mod c⟩,
    fun h => eq_fieldsOf_iff.2 ⟨h, toNat_ofNat_mod c⟩, eq_fieldsOf_iff⟩

/-- The ILLEGAL words are the words of FINISH's opcode with any argument but zero. -/
theorem illegal_eq_image :
    {c : CmdWord | ∃ e, decode c = .error e} = (fun a : Word => ofFields ⟨opFinish, a⟩) '' {0}ᶜ := by
  ext c
  simp only [Set.mem_ofPred_eq, decode_error_iff, Set.mem_image, Set.mem_compl_iff, Set.mem_singleton_iff]
  constructor
  · rintro ⟨hop, harg⟩
    exact ⟨_, harg, by rw [← hop, ofFields_fieldsOf]⟩
  · rintro ⟨a, ha, rfl⟩
    rw [fieldsOf_ofFields]
    exact ⟨rfl, ha⟩

/-- Words with different arguments are different. -/
theorem ofFields_injective : Function.Injective ofFields :=
  Function.LeftInverse.injective fieldsOf_ofFields

/-- Settles O6: the image counts the arguments that are not zero. -/
theorem countOfIllegalWords : Obligations.CountOfIllegalWords := by
  have hinj : Function.Injective fun a : Word => ofFields ⟨opFinish, a⟩ := fun a b h =>
    congrArg Fields.arg (ofFields_injective h)
  have hcard : Nat.card Word = 2 ^ 32 := by
    rw [Nat.card_congr BitVec.equivFin.toEquiv, Nat.card_eq_fintype_card, Fintype.card_fin]
  unfold Obligations.CountOfIllegalWords
  rw [illegal_eq_image, Set.ncard_image_of_injective _ hinj, Set.ncard_compl, hcard, Set.ncard_singleton]

/-- Settles O1: seven words, each decoded. -/
theorem tableWordsDecode : Obligations.TableWordsDecode := by
  unfold Obligations.TableWordsDecode
  decide

end Sys2Proof
end

section
/-! Lanes: the digits of a number in base `B`. Sums and differences are lanewise when no lane carries or borrows; a mask
with a constant in every lane is lanewise too. -/

namespace Sys2Proof.Machine

/-- Lane `j` of `x`, in lanes of base `B`. -/
def lane (B x j : Nat) : Nat := x / B ^ j % B

theorem lane_lt {B : Nat} (hB : 0 < B) (x j : Nat) : lane B x j < B := Nat.mod_lt _ hB

/-- A vector bit of a word is its lane of width one. -/
theorem toNat_getLsbD (w : Word) (i : Nat) : (w.getLsbD i).toNat = lane 2 w.toNat i := by
  rw [← BitVec.testBit_toNat, Nat.toNat_testBit, lane]

/-- The lanes below `j + 1` are the lanes below `j` and lane `j`. -/
theorem mod_pow_succ_lane (B x j : Nat) : x % B ^ (j + 1) = x % B ^ j + B ^ j * lane B x j := Nat.mod_pow_succ

/-- Shifting by a lane moves every lane down by one. -/
theorem lane_div (B x j : Nat) : lane B (x / B) j = lane B x (j + 1) := by
  rw [lane, lane, Nat.div_div_eq_div_mul, Nat.pow_succ']

/-- A lane of double width is two neighbouring lanes. -/
theorem lane_sq (B x j : Nat) : lane (B * B) x j = lane B x (2 * j) + B * lane B x (2 * j + 1) := by
  rw [lane, lane, lane, Nat.mod_mul, Nat.div_div_eq_div_mul, Nat.pow_succ, Nat.pow_mul, Nat.pow_two]

/-- The lower half of a lane of double width. -/
theorem lane_sq_mod (B x j : Nat) : lane (B * B) x j % B = lane B x (2 * j) := by
  rw [lane_sq, Nat.add_mul_mod_self_left, lane, Nat.mod_mod]

/-- A mask whose lane `j` is `l` ones keeps the low `l` bits of that lane. -/
theorem lane_and {k l m x j : Nat} (hm : lane (2 ^ k) m j = 2 ^ l - 1) :
    lane (2 ^ k) (x &&& m) j = lane (2 ^ k) x j % 2 ^ l := by
  rw [← Nat.and_two_pow_sub_one_eq_mod, ← hm]
  simp only [lane, ← Nat.pow_mul, Nat.and_div_two_pow, Nat.and_mod_two_pow]

/-- The lanes below `j` of a sum do not carry out. -/
theorem mod_add_mod_lt {B x y : Nat} (j : Nat) (h : ∀ i < j, lane B x i + lane B y i < B) :
    x % B ^ j + y % B ^ j < B ^ j := by
  induction j with
  | zero => simp [Nat.mod_one]
  | succ j ih =>
    have hlow := ih fun i hi => h i (by omega)
    have htop : B ^ j * (lane B x j + lane B y j + 1) ≤ B ^ j * B := Nat.mul_le_mul_left _ (h j (by omega))
    rw [mod_pow_succ_lane, mod_pow_succ_lane, Nat.pow_succ]
    linarith

/-- Lanes add when no lane up to this one carries. -/
theorem lane_add {B x y j : Nat} (h : ∀ i ≤ j, lane B x i + lane B y i < B) :
    lane B (x + y) j = lane B x j + lane B y j := by
  have hlow := mod_add_mod_lt j fun i hi => h i hi.le
  rw [lane, Nat.add_div_eq_of_add_mod_lt hlow, Nat.add_mod]
  exact Nat.mod_eq_of_lt (h j le_rfl)

/-- The lanes below `j` of a difference do not borrow. -/
theorem mod_le_mod_of_lanes {B x y : Nat} (j : Nat) (h : ∀ i < j, lane B y i ≤ lane B x i) :
    y % B ^ j ≤ x % B ^ j := by
  induction j with
  | zero => simp [Nat.mod_one]
  | succ j ih =>
    rw [mod_pow_succ_lane, mod_pow_succ_lane]
    exact Nat.add_le_add (ih fun i hi => h i (by omega)) (Nat.mul_le_mul_left _ (h j (by omega)))

/-- Division with remainder of a difference that does not borrow from the quotient. -/
theorem sub_div_and_sub_mod {m x y : Nat} (hm : 0 < m) (hle : y ≤ x) (h : y % m ≤ x % m) :
    (x - y) / m = x / m - y / m ∧ (x - y) % m = x % m - y % m := by
  have hdiv : y / m ≤ x / m := Nat.div_le_div_right hle
  have hx := Nat.mod_add_div x m
  have hy := Nat.mod_add_div y m
  have hmul : m * (y / m) ≤ m * (x / m) := Nat.mul_le_mul_left m hdiv
  have hlt := Nat.mod_lt x hm
  rw [Nat.div_mod_unique hm, Nat.mul_sub]
  omega

/-- Lanes subtract when no lane up to this one borrows. -/
theorem lane_sub {B x y j : Nat} (hB : 0 < B) (hle : y ≤ x) (h : ∀ i ≤ j, lane B y i ≤ lane B x i) :
    lane B (x - y) j = lane B x j - lane B y j := by
  have hlow := mod_le_mod_of_lanes j fun i hi => h i hi.le
  rw [lane, (sub_div_and_sub_mod (Nat.pow_pos hB) hle hlow).1]
  exact (sub_div_and_sub_mod hB (Nat.div_le_div_right hle) (h j le_rfl)).2

/-- Words add lanewise when no lane of theirs carries. -/
theorem lane_toNat_add {B n : Nat} (hB : B ^ n = 2 ^ 32) {x y : Word}
    (h : ∀ i < n, lane B x.toNat i + lane B y.toNat i < B) {j : Nat} (hj : j < n) :
    lane B (x + y).toNat j = lane B x.toNat j + lane B y.toNat j := by
  have hlt := mod_add_mod_lt n h
  rw [hB, Nat.mod_eq_of_lt x.isLt, Nat.mod_eq_of_lt y.isLt] at hlt
  rw [BitVec.toNat_add_of_lt hlt]
  exact lane_add fun i hi => h i (by omega)

/-- Words subtract lanewise when no lane of theirs borrows. -/
theorem lane_toNat_sub {B n : Nat} (hB : B ^ n = 2 ^ 32) {x y : Word}
    (h : ∀ i < n, lane B y.toNat i ≤ lane B x.toNat i) {j : Nat} (hj : j < n) :
    lane B (x - y).toNat j = lane B x.toNat j - lane B y.toNat j := by
  have hle := mod_le_mod_of_lanes n h
  rw [hB, Nat.mod_eq_of_lt x.isLt, Nat.mod_eq_of_lt y.isLt] at hle
  have hpos : 0 < B := Nat.pos_of_ne_zero fun h0 => by
    rw [h0, Nat.zero_pow (by omega)] at hB
    exact absurd hB (by decide)
  rw [BitVec.toNat_sub_of_le (BitVec.le_def.2 hle)]
  exact lane_sub hpos hle fun i hi => h i (by omega)

end Sys2Proof.Machine
end

section
/-! The reducer (R56 to R61): what every lane of a stage holds, and PC32 as the number of one bits. -/

namespace Sys2Proof.Machine

theorem toNat_ushiftRight_pow (w : Word) (k : Nat) : (w >>> k).toNat = w.toNat / 2 ^ k := by
  rw [BitVec.toNat_ushiftRight, Nat.shiftRight_eq_div_pow]

/-- Stage 1: a pair holds the sum of its two bits (R56). The mask keeps the upper bit of every pair. -/
theorem lane_stageA (w : Word) {j : Nat} (hj : j < 16) :
    lane 4 (stageA w).toNat j = lane 2 w.toNat (2 * j) + lane 2 w.toNat (2 * j + 1) := by
  have hmask : ∀ i < 16, lane 4 ((w >>> 1) &&& 0x55555555).toNat i = lane 2 w.toNat (2 * i + 1) := fun i hi => by
    have hm : lane 4 0x55555555 i = 1 := by decide +revert
    rw [BitVec.toNat_and, toNat_ushiftRight_pow]
    exact (lane_and (k := 2) (l := 1) hm).trans ((lane_sq_mod 2 _ i).trans (lane_div 2 _ _))
  have hpair : ∀ i, lane 4 w.toNat i = lane 2 w.toNat (2 * i) + 2 * lane 2 w.toNat (2 * i + 1) := lane_sq 2 _
  rw [stageA, lane_toNat_sub (n := 16) (by norm_num) (fun i hi => ?noBorrow) hj, hmask j hj, hpair]
  · omega
  case noBorrow =>
    rw [hmask i hi, hpair]
    omega

/-- Stage 2: a nibble holds the sum of its two pairs (R57). -/
theorem lane_stageB (a : Word) {j : Nat} (hj : j < 8) :
    lane 16 (stageB a).toNat j = lane 4 a.toNat (2 * j) + lane 4 a.toNat (2 * j + 1) := by
  have hmask : ∀ x : Nat, ∀ i < 8, lane 16 (x &&& 0x33333333) i = lane 4 x (2 * i) := fun x i hi => by
    have hm : lane 16 0x33333333 i = 3 := by decide +revert
    exact (lane_and (k := 4) (l := 2) hm).trans (lane_sq_mod 4 x i)
  have hlow : ∀ i < 8, lane 16 (a &&& 0x33333333 : Word).toNat i = lane 4 a.toNat (2 * i) := hmask a.toNat
  have hhigh : ∀ i < 8, lane 16 ((a >>> 2) &&& 0x33333333).toNat i = lane 4 a.toNat (2 * i + 1) := fun i hi => by
    rw [BitVec.toNat_and, toNat_ushiftRight_pow]
    exact (hmask _ i hi).trans (lane_div 4 _ _)
  have hlt : ∀ i, lane 4 a.toNat i < 4 := lane_lt (by decide) _
  have hstage : stageB a = (a &&& 0x33333333 : Word) + ((a >>> 2) &&& 0x33333333) := rfl
  rw [hstage, lane_toNat_add (n := 8) (by norm_num) (fun i hi => ?noCarry) hj, hlow j hj, hhigh j hj]
  case noCarry =>
    have h0 := hlt (2 * i)
    have h1 := hlt (2 * i + 1)
    rw [hlow i hi, hhigh i hi]
    omega

/-- Stage 3a: a byte holds the sum of its two nibbles (R58). Nibbles of at most 7 do not carry before the mask. -/
theorem lane_stageD (b : Word) (hb : ∀ i < 8, lane 16 b.toNat i < 8) {j : Nat} (hj : j < 4) :
    lane 256 (stageD b).toNat j = lane 16 b.toNat (2 * j) + lane 16 b.toNat (2 * j + 1) := by
  have hshift : ∀ i, lane 16 (b >>> 4).toNat i = lane 16 b.toNat (i + 1) := fun i => by
    rw [toNat_ushiftRight_pow]
    exact lane_div 16 _ _
  have htop : lane 16 b.toNat 8 = 0 := by
    rw [lane, Nat.div_eq_of_lt (b.isLt.trans_eq (by norm_num))]
  have hnocarry : ∀ i < 8, lane 16 b.toNat i + lane 16 (b >>> 4).toNat i < 16 := fun i hi => by
    have h0 := hb i hi
    have h1 : lane 16 b.toNat (i + 1) < 8 := by
      obtain h | rfl : i + 1 < 8 ∨ i = 7 := by omega
      · exact hb _ h
      · rw [htop]
        decide
    rw [hshift]
    omega
  have hm : lane 256 0x0F0F0F0F j = 15 := by decide +revert
  have hmask : lane 256 (stageD b).toNat j = lane 16 (b + b >>> 4).toNat (2 * j) := by
    rw [stageD, BitVec.toNat_and]
    exact (lane_and (k := 8) (l := 4) hm).trans (lane_sq_mod 16 _ j)
  rw [hmask, lane_toNat_add (n := 8) (by norm_num) hnocarry (by omega), hshift]

/-- A word is its four bytes. -/
theorem toNat_eq_bytes (d : Word) :
    d.toNat = lane 256 d.toNat 0 + 256 * lane 256 d.toNat 1 + 65536 * lane 256 d.toNat 2 +
      16777216 * lane 256 d.toNat 3 := by
  calc d.toNat = d.toNat % 256 ^ 4 := (Nat.mod_eq_of_lt d.isLt).symm
    _ = _ := by
      simp only [mod_pow_succ_lane]
      simp [Nat.mod_one]

/-- Stages 3b and the shift: the product gathers the four bytes in the top byte, when their sum fits it (R59). -/
theorem toNat_stageP_shift (d : Word) (hd : ∀ j < 4, lane 256 d.toNat j ≤ 8) :
    (stageP d >>> 24).toNat = lane 256 d.toNat 0 + lane 256 d.toNat 1 + lane 256 d.toNat 2 + lane 256 d.toNat 3 := by
  have h0 := hd 0 (by decide)
  have h1 := hd 1 (by decide)
  have h2 := hd 2 (by decide)
  have h3 := hd 3 (by decide)
  have hbytes := toNat_eq_bytes d
  have hfactor : (0x01010101 : Word).toNat = 16843009 := rfl
  rw [toNat_ushiftRight_pow, stageP, BitVec.toNat_mul, hfactor]
  generalize d.toNat = x at *
  generalize lane 256 x 0 = a0 at *
  generalize lane 256 x 1 = a1 at *
  generalize lane 256 x 2 = a2 at *
  generalize lane 256 x 3 = a3 at *
  have hproduct : x * 16843009 =
      a0 + 256 * (a0 + a1) + 65536 * (a0 + a1 + a2) + 16777216 * (a0 + a1 + a2 + a3) +
        2 ^ 32 * (a1 + a2 + a3 + 256 * (a2 + a3) + 65536 * a3) := by omega
  rw [hproduct, Nat.add_mul_mod_self_left, Nat.mod_eq_of_lt (by omega)]
  omega

/-- The pairs of stage 1, in bits of `w`. -/
theorem lane_stageA_bits (w : Word) {j : Nat} (hj : j < 16) :
    lane 4 (stageA w).toNat j = (w.getLsbD (2 * j)).toNat + (w.getLsbD (2 * j + 1)).toNat := by
  rw [toNat_getLsbD, toNat_getLsbD, lane_stageA w hj]

/-- The nibbles of stage 2, in bits of `w`. -/
theorem lane_stageB_bits (w : Word) {j : Nat} (hj : j < 8) :
    lane 16 (stageB (stageA w)).toNat j = ((List.range 4).map fun k => (w.getLsbD (4 * j + k)).toNat).sum := by
  rw [lane_stageB _ hj, lane_stageA_bits w (by omega), lane_stageA_bits w (by omega)]
  simp only [List.sum_range_succ, List.range_zero, List.map_nil, List.sum_nil]
  ring_nf

theorem sum_bits_le (w : Word) (o n : Nat) : ((List.range n).map fun k => (w.getLsbD (o + k)).toNat).sum ≤ n := by
  induction n with
  | zero => simp
  | succ n ih =>
    rw [List.sum_range_succ]
    exact Nat.add_le_add ih (Bool.toNat_le _)

/-- The bytes of stage 3a, in bits of `w`. -/
theorem lane_stageD_bits (w : Word) {j : Nat} (hj : j < 4) :
    lane 256 (stageD (stageB (stageA w))).toNat j =
      ((List.range 8).map fun k => (w.getLsbD (8 * j + k)).toNat).sum := by
  have hb : ∀ i < 8, lane 16 (stageB (stageA w)).toNat i < 8 := fun i hi => by
    rw [lane_stageB_bits w hi]
    exact (sum_bits_le w _ 4).trans_lt (by decide)
  rw [lane_stageD _ hb hj, lane_stageB_bits w (by omega), lane_stageB_bits w (by omega)]
  simp only [List.sum_range_succ, List.range_zero, List.map_nil, List.sum_nil]
  ring_nf

/-- Settles O10: the lane readings of the stages, one after the other. -/
theorem stagesCountTheirLanes : Obligations.StagesCountTheirLanes := fun w =>
  ⟨fun _ hj => lane_stageA_bits w hj, fun _ hj => lane_stageB_bits w hj, fun _ hj => lane_stageD_bits w hj⟩

/-- PC32 is the number of one bits (R60): the sum of the four bytes of stage 3a. -/
theorem toNat_pc32 (w : Word) : (pc32 w).toNat = bitCount w := by
  have hd : ∀ j < 4, lane 256 (stageD (stageB (stageA w))).toNat j ≤ 8 := fun j hj => by
    rw [lane_stageD_bits w hj]
    exact sum_bits_le w _ 8
  rw [pc32, toNat_stageP_shift _ hd, lane_stageD_bits w (by decide), lane_stageD_bits w (by decide),
    lane_stageD_bits w (by decide), lane_stageD_bits w (by decide), bitCount]
  simp only [List.sum_range_succ, List.range_zero, List.map_nil, List.sum_nil]
  ring_nf

theorem bitCount_eq_sum (w : Word) : bitCount w = ∑ k ∈ Finset.range 32, (w.getLsbD k).toNat := rfl

theorem bitCount_le (w : Word) : bitCount w ≤ 32 := by
  rw [bitCount_eq_sum]
  exact (Finset.sum_le_card_nsmul _ _ 1 fun k _ => Bool.toNat_le _).trans (by simp)

/-- Settles O11: the bytes of stage 3a add up to the number of one bits of the word. -/
theorem reducerCountsOneBits : Obligations.ReducerCountsOneBits := fun w =>
  ⟨toNat_pc32 w, (toNat_pc32 w).trans_le (bitCount_le w)⟩

/-- A word and its complement have 32 one bits between them. -/
theorem bitCount_not_add (x : Word) : bitCount (~~~x) + bitCount x = 32 := by
  rw [bitCount_eq_sum, bitCount_eq_sum, ← Finset.sum_add_distrib]
  refine (Finset.sum_congr rfl fun k hk => ?_).trans (Finset.sum_const 1)
  have hk : k < 32 := Finset.mem_range.1 hk
  rw [BitVec.getLsbD_not, decide_eq_true hk]
  cases x.getLsbD k <;> rfl

/-- The bits of disjoint words add up. -/
theorem bitCount_or_of_disjoint {x y : Word} (h : x &&& y = 0) : bitCount (x ||| y) = bitCount x + bitCount y := by
  rw [bitCount_eq_sum, bitCount_eq_sum, bitCount_eq_sum, ← Finset.sum_add_distrib]
  refine Finset.sum_congr rfl fun k _ => ?_
  have hk : (x.getLsbD k && y.getLsbD k) = false := by
    rw [← BitVec.getLsbD_and, h]
    exact BitVec.getLsbD_zero
  rw [BitVec.getLsbD_or]
  revert hk
  cases x.getLsbD k <;> cases y.getLsbD k <;> simp

/-- Masking adds no one bit. -/
theorem bitCount_and_le (x y : Word) : bitCount (x &&& y) ≤ bitCount x := by
  rw [bitCount_eq_sum, bitCount_eq_sum]
  refine Finset.sum_le_sum fun k _ => ?_
  rw [BitVec.getLsbD_and]
  cases x.getLsbD k <;> simp [Bool.toNat_le]

/-- Settles O12: the three facts about one bits, read through `toNat_pc32`. -/
theorem reducerAlgebra : Obligations.ReducerAlgebra := by
  refine fun x y => ⟨?complement, fun h => ?disjoint, ?masked⟩
  case complement =>
    have := bitCount_not_add x
    rw [toNat_pc32, toNat_pc32]
    omega
  case disjoint =>
    have hx := bitCount_le x
    have hy := bitCount_le y
    apply BitVec.eq_of_toNat_eq
    rw [BitVec.toNat_add_of_lt (by rw [toNat_pc32, toNat_pc32]; omega), toNat_pc32, toNat_pc32, toNat_pc32,
      bitCount_or_of_disjoint h]
  case masked =>
    rw [toNat_pc32, toNat_pc32]
    exact bitCount_and_le x y

end Sys2Proof.Machine
end

section
/-! BufferLength (R52) against `floor(N/32)` and `ceil(N/32)`. -/

namespace Sys2Proof.Machine

/-- Settles O7: the value of `toNat_bufferLength` in each clause. -/
theorem bufferLengthIsFloorPlusOne : Obligations.BufferLengthIsFloorPlusOne := by
  intro n
  have hn := n.isLt
  rw [toNat_bufferLength]
  omega

end Sys2Proof.Machine
end

section
/-! The trailing mask (R63 to R65): its bits, and what it leaves of a buffer. -/

namespace Sys2Proof.Machine

/-- TMASK keeps the bits below `t` (R64). -/
theorem getLsbD_tmask (t : Word) (k : Nat) : (tmask t).getLsbD k = (decide (k < 32) && decide (k < t.toNat)) := by
  have hones : ∀ i < 32, allOnes.getLsbD i = true := by decide
  by_cases hk : k < 32
  · by_cases ht : k < t.toNat
    · simp [tmask, hk, ht]
    · simp [tmask, hk, ht, hones (k - t.toNat) (by omega)]
  · simp [hk, BitVec.getLsbD_of_ge _ _ (not_lt.1 hk)]

/-- TMASK as a number (R64, derived form). -/
theorem toNat_tmask {t : Word} (ht : t.toNat ≤ 31) : (tmask t).toNat = 2 ^ t.toNat - 1 := by
  apply Nat.eq_of_testBit_eq
  intro k
  rw [BitVec.testBit_toNat, getLsbD_tmask, Nat.testBit_two_pow_sub_one]
  by_cases hk : k < t.toNat
  · simp [hk, show k < 32 by omega]
  · simp [hk]

/-- Settles O9: the mask bit by bit, and the number with these bits. -/
theorem trailingMaskKeepsLowBits : Obligations.TrailingMaskKeepsLowBits :=
  ⟨toNat_trailingCount, fun t ht =>
    ⟨toNat_tmask ht, fun k hk => by rw [getLsbD_tmask, decide_eq_true hk, Bool.true_and]⟩⟩

/-- The index of the last word is `floor(N/32)` (R65). -/
theorem toNat_bufferLength_sub_one (n : Word) : (bufferLength n - 1).toNat = n.toNat / 32 := by
  rw [toNat_sub_one (by rw [toNat_bufferLength]; omega), toNat_bufferLength, Nat.add_sub_cancel]

/-- The mask on a last word keeps the bits below `N mod 32` (R65). -/
theorem getLsbD_maskedLast (n x : Word) (k : Nat) :
    (maskedLast n x).getLsbD k = (decide (k < n.toNat % 32) && x.getLsbD k) := by
  rw [maskedLast, BitVec.getLsbD_and, getLsbD_tmask, toNat_trailingCount]
  by_cases hk : k < n.toNat % 32
  · simp [hk, show k < 32 by omega]
  · simp [hk]

@[simp] theorem length_maskLastWord (n : Word) (b : List Word) : (maskLastWord n b).length = b.length := by
  rw [maskLastWord, List.length_set]

/-- The words of a masked buffer. -/
theorem getD_maskLastWord {n : Word} {b : List Word} (hb : b.length = (bufferLength n).toNat) (j : Nat) :
    (maskLastWord n b).getD j 0 = if j = n.toNat / 32 then maskedLast n (b.getD j 0) else b.getD j 0 := by
  have hlast : n.toNat / 32 < b.length := by
    rw [hb, toNat_bufferLength]
    omega
  rw [maskLastWord, toNat_bufferLength_sub_one]
  by_cases hj : j = n.toNat / 32
  · subst hj
    simp [hlast]
  · simp [hj, Ne.symm hj]

/-- Settles O13: the last word loses the bits from `N mod 32` on, and every other word lies below N whole. -/
theorem maskClearsExactlyBeyondLength : Obligations.MaskClearsExactlyBeyondLength := by
  intro n b hb i hi
  have hword : i / 32 ≤ n.toNat / 32 := by
    rw [hb, toNat_bufferLength] at hi
    omega
  rw [vectorBit, getD_maskLastWord hb]
  by_cases hj : i / 32 = n.toNat / 32
  · have hbelow : i % 32 < n.toNat % 32 ↔ i < n.toNat := by omega
    rw [if_pos hj, getLsbD_maskedLast, decide_eq_decide.2 hbelow, vectorBit]
  · have hbelow : i < n.toNat := by omega
    rw [if_neg hj, decide_eq_true hbelow, Bool.true_and, vectorBit]

end Sys2Proof.Machine
end

section
/-! Counting (R60, R67, R76): the sum over a masked buffer is the number of vector bits. -/

namespace Sys2Proof.Machine

theorem cardBits_eq_sum (n : Nat) (ws : List Word) : cardBits n ws = ∑ i ∈ Finset.range n, (vectorBit ws i).toNat := rfl

/-- The number of vector bits depends on the bits below the length only. -/
theorem cardBits_congr {n : Nat} {vs ws : List Word} (h : ∀ i < n, vectorBit vs i = vectorBit ws i) :
    cardBits n vs = cardBits n ws := by
  rw [cardBits_eq_sum, cardBits_eq_sum]
  exact Finset.sum_congr rfl fun i hi => by rw [h i (Finset.mem_range.1 hi)]

theorem cardBits_le (n : Nat) (ws : List Word) : cardBits n ws ≤ n := by
  rw [cardBits_eq_sum]
  exact (Finset.sum_le_card_nsmul _ _ 1 fun i _ => Bool.toNat_le _).trans (by simp)

theorem vectorBit_cons_add (x : Word) (b : List Word) (i : Nat) : vectorBit (x :: b) (32 + i) = vectorBit b i := by
  have hdiv : (32 + i) / 32 = i / 32 + 1 := by omega
  rw [vectorBit, vectorBit, hdiv, Nat.add_mod_left, List.getD_cons_succ]

theorem vectorBit_cons_of_lt (x : Word) (b : List Word) {i : Nat} (hi : i < 32) :
    vectorBit (x :: b) i = x.getLsbD i := by
  rw [vectorBit, Nat.div_eq_of_lt hi, Nat.mod_eq_of_lt hi, List.getD_cons_zero]

/-- The one bits of a buffer, word by word, are its vector bits. -/
theorem sum_bitCount (b : List Word) : (b.map bitCount).sum = cardBits (32 * b.length) b := by
  induction b with
  | nil => rfl
  | cons x b ih =>
    have hlen : 32 * (x :: b).length = 32 + 32 * b.length := by rw [List.length_cons]; ring
    have hhead : ∑ i ∈ Finset.range 32, (vectorBit (x :: b) i).toNat = bitCount x := by
      rw [bitCount_eq_sum]
      exact Finset.sum_congr rfl fun i hi => by rw [vectorBit_cons_of_lt x b (Finset.mem_range.1 hi)]
    rw [List.map_cons, List.sum_cons, ih, cardBits_eq_sum, cardBits_eq_sum, hlen, Finset.sum_range_add, hhead]
    simp only [vectorBit_cons_add]

/-- Masking a buffer leaves the one bits at positions below N to be counted (R68). -/
theorem sum_bitCount_maskLastWord {n : Word} {b : List Word} (hb : b.length = (bufferLength n).toNat) :
    ((maskLastWord n b).map bitCount).sum = cardBits n.toNat b := by
  have hn : n.toNat ≤ 32 * b.length := by
    rw [hb, toNat_bufferLength]
    omega
  obtain ⟨k, hk⟩ := Nat.exists_eq_add_of_le hn
  have hbit : ∀ i < 32 * b.length, vectorBit (maskLastWord n b) i = (decide (i < n.toNat) && vectorBit b i) :=
    maskClearsExactlyBeyondLength n b hb
  have hbeyond : ∑ i ∈ Finset.range k, (vectorBit (maskLastWord n b) (n.toNat + i)).toNat = 0 :=
    Finset.sum_eq_zero fun i hi => by
      have hi : i < k := Finset.mem_range.1 hi
      rw [hbit _ (by omega)]
      simp
  have hbelow : cardBits n.toNat (maskLastWord n b) = cardBits n.toNat b :=
    cardBits_congr fun i hi => by rw [hbit i (by omega), decide_eq_true hi, Bool.true_and]
  rw [sum_bitCount, length_maskLastWord, hk, cardBits_eq_sum, Finset.sum_range_add, hbeyond, Nat.add_zero,
    ← cardBits_eq_sum, hbelow]

/-- ACCSTEP over words, as numbers, while the sum fits 32 bits (R66, R67). -/
theorem toNat_foldl_accStep {b : List Word} {acc : Word} (h : acc.toNat + (b.map bitCount).sum < 2 ^ 32) :
    (b.foldl accStep acc).toNat = acc.toNat + (b.map bitCount).sum := by
  induction b generalizing acc with
  | nil => rfl
  | cons x b ih =>
    rw [List.map_cons, List.sum_cons, ← Nat.add_assoc] at h ⊢
    have hstep : (accStep acc x).toNat = acc.toNat + bitCount x := by
      rw [accStep, BitVec.toNat_add_of_lt (by rw [toNat_pc32]; omega), toNat_pc32]
    rw [List.foldl_cons, ih (by rwa [hstep]), hstep]

theorem toNat_foldWords {b : List Word} (h : (b.map bitCount).sum < 2 ^ 32) :
    (foldWords b).toNat = (b.map bitCount).sum :=
  (toNat_foldl_accStep (acc := 0) (by simpa using h)).trans (Nat.zero_add _)

/-- FOLD of a masked buffer is the number of its vector bits below N: it does not wrap. -/
theorem toNat_foldWords_maskLastWord {n : Word} {b : List Word} (hb : b.length = (bufferLength n).toNat) :
    (foldWords (maskLastWord n b)).toNat = cardBits n.toNat b := by
  have hsum := sum_bitCount_maskLastWord hb
  have hlt : cardBits n.toNat b < 2 ^ 32 := (cardBits_le n.toNat b).trans_lt n.isLt
  rw [toNat_foldWords (hsum ▸ hlt), hsum]

/-- Settles O14: both sides are the number of vector bits below N. -/
theorem maskedFoldNeverWraps : Obligations.MaskedFoldNeverWraps := fun n b hb =>
  ⟨(toNat_foldWords_maskLastWord hb).trans (sum_bitCount_maskLastWord hb).symm,
    (toNat_foldWords_maskLastWord hb).trans_le (cardBits_le n.toNat b)⟩

theorem map_getD_range (b : List Word) : (List.range b.length).map (fun j => b.getD j 0) = b :=
  List.ext_getElem (by simp) fun j hj _ => by
    have hj : j < b.length := by simpa using hj
    simp [hj]

/-- Settles O15: each step of the streaming fold takes the word of the masked buffer. -/
theorem streamingFoldAgrees : Obligations.StreamingFoldAgrees := by
  intro n b hb
  have hstep : ∀ (acc : Word) (j : Nat),
      streamStep n (bufferLength n) acc j (b.getD j 0) = accStep acc ((maskLastWord n b).getD j 0) := by
    intro acc j
    rw [streamStep, accStep, getD_maskLastWord hb, toNat_bufferLength_sub_one]
    by_cases hj : j = n.toNat / 32
    · rw [if_neg (not_not.2 hj), if_pos hj, maskedLast]
    · have hones : allOnes = BitVec.allOnes 32 := rfl
      rw [if_pos hj, if_neg hj, hones, BitVec.and_allOnes]
  simp only [hstep]
  conv_rhs => rw [foldWords, ← map_getD_range (maskLastWord n b), List.foldl_map, length_maskLastWord]

@[simp] theorem length_allocate (n : Word) : (allocate n).length = (bufferLength n).toNat := List.length_replicate

@[simp] theorem length_copyIn (n : Word) (ws b : List Word) : (copyIn n ws b).length = b.length := by
  simp [copyIn]

/-- The copied buffer holds the words of `ws`, and zeros after them. -/
theorem getD_copyIn {n : Word} {ws : List Word} (hws : ws.length = (n.toNat + 31) / 32) (j : Nat) :
    (copyIn n ws (allocate n)).getD j 0 = ws.getD j 0 := by
  have hwc : ws.length ≤ (bufferLength n).toNat := by
    rw [hws, toNat_bufferLength]
    omega
  by_cases hj : j < ws.length
  · have hcopied : j < (copyWords n).toNat := by rwa [toNat_copyWords, ← hws]
    simp [copyIn, hj.trans_le hwc, hcopied]
  · have hrest : ¬ j < (copyWords n).toNat := by rwa [toNat_copyWords, ← hws]
    rw [List.getD_eq_default ws 0 (not_lt.1 hj)]
    by_cases hb : j < (bufferLength n).toNat
    · simp [copyIn, hb, hrest, allocate]
    · exact List.getD_eq_default _ _ (by simpa using hb)

/-- CardW is the number of vector bits (R76): the copied buffer has the vector bits of `ws`. -/
theorem toNat_cardW {n : Word} {ws : List Word} (hws : ws.length = (n.toNat + 31) / 32) :
    (cardW n ws).toNat = cardBits n.toNat ws := by
  rw [cardW, toNat_foldWords_maskLastWord (by simp)]
  exact cardBits_congr fun i _ => by rw [vectorBit, vectorBit, getD_copyIn hws]

/-- Settles O16: the five steps count the vector bits below N, stray bits masked. -/
theorem algorithmCountsVectorBits : Obligations.AlgorithmCountsVectorBits := fun _ _ hws => toNat_cardW hws

end Sys2Proof.Machine
end

section
/-! Every command as one equation: the checks of R88 in their order, then the effect. -/

namespace Sys2Proof.Machine

/-- The length check of a command (R83): only START has one. -/
def State.hasCapacity (s : State) : Instr → Bool
  | .buflen _ => true
  | .start n => s.lengthFits n
  | .push _ => true
  | .finish => true

/-- The word index a command accesses exists (R28, log 6). The words below the last one exist when it does. -/
def State.addressExists (s : State) : Instr → Bool
  | .buflen _ => true
  | .start _ => true
  | .push _ => decide (s.pushIndex < s.cfg.bufWords)
  | .finish => decide (s.lastIndex < s.cfg.bufWords)

theorem State.addressExists_push {s : State} {w : Word} :
    s.addressExists (.push w) = true ↔ s.pushIndex < s.cfg.bufWords := decide_eq_true_iff

theorem State.addressExists_finish {s : State} : s.addressExists .finish = true ↔ s.lastIndex < s.cfg.bufWords :=
  decide_eq_true_iff

/-- The state after an accepted START (R72). -/
def State.opened (s : State) (n : Word) : State := (s.openOperation n).setBuf (s.buf.zeroed (bufferLength n).toNat)

/-- The state after an accepted PUSH (R73). -/
def State.pushed (s : State) (w : Word) : State := (s.setBuf (s.buf.write s.pushIndex w)).advanceIndex

/-- The state after an accepted FINISH (R74). -/
def State.finished (s : State) : State :=
  s.masked.closeOperation ((s.masked.words s.wc.toNat).foldl accStep s.acc)

/-- The state after an accepted command. -/
def State.effect (s : State) : Instr → State
  | .buflen n => s.setBlen (bufferLength n)
  | .start n => s.opened n
  | .push w => s.pushed w
  | .finish => s.finished

/-- When the last word exists, so do all WC words: `WC - 1` wraps only for WC = 0. -/
theorem State.wc_le_of_lastIndex_lt {s : State} (h : s.lastIndex < s.cfg.bufWords) : s.wc.toNat ≤ s.cfg.bufWords := by
  obtain hz | hpos := Nat.eq_zero_or_pos s.wc.toNat
  · omega
  · rw [State.lastIndex_eq hpos] at h
    omega

theorem exec_push_eq {s : State} (h : s.pushInSequence = true) (w : Word) :
    exec (.push w) s =
      if s.addressExists (.push w) then .next (s.effect (.push w)) else .fault .bufIndexOutOfRange := by
  by_cases hi : s.pushIndex < s.cfg.bufWords
  · rw [exec_push_of_inSequence h hi, if_pos (State.addressExists_push.2 hi)]
    rfl
  · have hf : s.phase ≠ .fault := by simp [(State.pushInSequence_iff.1 h).1]
    rw [exec, execPush, State.unlessFault_of_ne hf, if_pos h, State.memWrite, if_neg hi,
      if_neg (mt State.addressExists_push.1 hi)]

theorem exec_finish_eq {s : State} (h : s.finishInSequence = true) :
    exec .finish s = if s.addressExists .finish then .next (s.effect .finish) else .fault .bufIndexOutOfRange := by
  obtain ⟨hp, hidx⟩ := State.finishInSequence_iff_copyWords.1 h
  by_cases hl : s.lastIndex < s.cfg.bufWords
  · rw [if_pos (State.addressExists_finish.2 hl)]
    exact execFinish_of_le hp hidx hl (State.wc_le_of_lastIndex_lt hl)
  · rw [exec, execFinish, State.unlessFault_of_ne (by simp [hp]), if_pos h, State.maskLast, State.memRead, if_neg hl,
      if_neg (mt State.addressExists_finish.1 hl)]

/-- What a command does, in the order of R88: discard in FAULT, E_SEQ, E_CAP, the model's stop (log 6), the effect. -/
theorem exec_eq (i : Instr) (s : State) :
    exec i s =
      if s.phase = .fault then .next s
      else if s.inSequence i then
        if s.hasCapacity i then
          if s.addressExists i then .next (s.effect i) else .fault .bufIndexOutOfRange
        else .next (s.raise .cap)
      else .next (s.raise .seq) := by
  by_cases hf : s.phase = .fault
  · rw [if_pos hf, exec_of_fault hf]
  rw [if_neg hf]
  by_cases hq : s.inSequence i = true
  · rw [if_pos hq]
    cases i with
    | buflen n => exact exec_buflen_of_ne hf n
    | start n =>
      have hp : s.phase = .idle ∨ s.phase = .done := (idle_or_done_iff hf).2 (State.startInSequence_iff.1 hq)
      by_cases hc : s.lengthFits n = true
      · exact (exec_start_of_fits hp hc).trans (if_pos hc).symm
      · exact (exec_start_of_not_fits hp hc).trans (if_neg hc).symm
    | push w => exact exec_push_eq hq w
    | finish => exact exec_finish_eq hq
  · rw [if_neg hq, exec_of_not_inSequence hf hq]

/-- An executed command has passed every check. -/
structure State.Executes (s : State) (i : Instr) : Prop where
  notFault : s.phase ≠ .fault
  inSequence : s.inSequence i = true
  hasCapacity : s.hasCapacity i = true
  addressExists : s.addressExists i = true

theorem State.Executes.exec_eq {s : State} {i : Instr} (h : s.Executes i) : exec i s = .next (s.effect i) := by
  rw [Machine.exec_eq, if_neg h.notFault, if_pos h.inSequence, if_pos h.hasCapacity, if_pos h.addressExists]

/-- A command that answers a next state is discarded, faults, or is executed. -/
theorem exec_next_cases {i : Instr} {s t : State} (h : exec i s = .next t) :
    (s.phase = .fault ∧ t = s) ∨ (s.phase ≠ .fault ∧ ∃ code : Ecode, code ≠ .none ∧ t = s.raise code) ∨
      (s.Executes i ∧ t = s.effect i) := by
  rw [exec_eq] at h
  split_ifs at h with hf hq hc ha
  · exact .inl ⟨hf, (Host.Outcome.next.inj h).symm⟩
  · exact .inr (.inr ⟨⟨hf, hq, hc, ha⟩, (Host.Outcome.next.inj h).symm⟩)
  · exact .inr (.inl ⟨hf, .cap, by decide, (Host.Outcome.next.inj h).symm⟩)
  · exact .inr (.inl ⟨hf, .seq, by decide, (Host.Outcome.next.inj h).symm⟩)

/-- A command that stops has passed the sequence check, and accesses a word that does not exist. -/
theorem exec_fault_cases {i : Instr} {s : State} {r : Fault} (h : exec i s = .fault r) :
    s.inSequence i = true ∧ ¬ s.addressExists i = true ∧ r = .bufIndexOutOfRange := by
  rw [exec_eq] at h
  split_ifs at h with hf hq hc ha
  exact ⟨hq, ha, (Host.Outcome.fault.inj h).symm⟩

/-- No command is refused. -/
theorem exec_ne_refused (i : Instr) (s : State) (r : Refusal) : exec i s ≠ .refused r := by
  rw [exec_eq]
  split_ifs <;> exact nofun

/-- Settles O23: the stop of a command in sequence at an index that does not exist, and the inversion of every stop. -/
theorem stopsOutsideTheBuffer : Obligations.StopsOutsideTheBuffer := by
  refine ⟨fun s hp => ⟨fun w hidx hi => ?push, fun hidx hl => ?finish⟩, fun i s r h => ?onlyThese⟩
  case push =>
    rw [exec_push_eq (State.pushInSequence_iff_copyWords.2 ⟨hp, hidx⟩),
      if_neg (mt State.addressExists_push.1 hi.not_gt)]
  case finish =>
    rw [exec_finish_eq (State.finishInSequence_iff_copyWords.2 ⟨hp, hidx⟩),
      if_neg (mt State.addressExists_finish.1 hl.not_gt)]
  case onlyThese =>
    obtain ⟨hq, ha, rfl⟩ := exec_fault_cases h
    cases i with
    | buflen n => exact absurd rfl ha
    | start n => exact absurd rfl ha
    | push w =>
      exact ⟨(State.pushInSequence_iff.1 hq).1, rfl, .inl ⟨w, rfl, not_lt.1 (mt State.addressExists_push.2 ha)⟩⟩
    | finish =>
      exact ⟨(State.finishInSequence_iff.1 hq).1, rfl, .inr ⟨rfl, not_lt.1 (mt State.addressExists_finish.2 ha)⟩⟩

end Sys2Proof.Machine
end

section
/-! What the commands change: registers (10_state.md section 9), words of BUF (R110), PHASE (R20). -/

namespace Sys2Proof.Machine

theorem State.word_opened (s : State) (n : Word) (i : Nat) :
    (s.opened n).word i = if i < (bufferLength n).toNat then 0 else s.word i :=
  State.word_zeroed (s.openOperation n) _ i

theorem State.word_pushed (s : State) (w : Word) (i : Nat) :
    (s.pushed w).word i = if i = s.pushIndex then w else s.word i :=
  State.word_write s s.pushIndex i w

theorem State.word_finished (s : State) (i : Nat) :
    s.finished.word i = if i = s.lastIndex then maskedLast s.len (s.word s.lastIndex) else s.word i :=
  State.masked_word s i

/-- Settles O20: E_CAP is the only other answer in phase IDLE or DONE, and it is not in phase LOAD. -/
theorem startAcceptsExactlyWhatFits : Obligations.StartAcceptsExactlyWhatFits := by
  intro n s hp
  have hfits : s.lengthFits n = true ↔ n.toNat + 1 ≤ 32 * s.cfg.bufWords := by
    rw [State.lengthFits_iff]
    omega
  have haccepted : (∃ t, exec (.start n) s = .next t ∧ t.phase = .load) ↔ n.toNat + 1 ≤ 32 * s.cfg.bufWords := by
    rw [← hfits]
    constructor
    · rintro ⟨t, ht, hl⟩
      by_contra hc
      rw [exec_start_of_not_fits hp hc] at ht
      rw [← Host.Outcome.next.inj ht] at hl
      exact nomatch hl
    · exact fun h => ⟨_, exec_start_of_fits hp h, rfl⟩
  refine ⟨haccepted, fun hmax => haccepted.2 ?_⟩
  have := n.isLt
  omega

/-- Settles O24: a discarded command changes nothing, a fault entry PHASE and ECODE, and the effect of each command its
own registers. -/
theorem registersChangeOnlyByTheirWriters : Obligations.RegistersChangeOnlyByTheirWriters := by
  intro i s t h
  rcases exec_next_cases h with ⟨-, rfl⟩ | ⟨-, code, -, rfl⟩ | ⟨-, rfl⟩
  · simp
  · simp
  · cases i with
    | buflen n => simp [State.effect]
    | start n => simp [State.effect, State.opened]
    | push w => simp [State.effect, State.pushed]
    | finish => simp [State.effect, State.finished, State.masked]

/-- Settles O25: only the three effects on BUF change a word, each at its own addresses. -/
theorem bufferChangesOnlyAtImplicitAddresses : Obligations.BufferChangesOnlyAtImplicitAddresses := by
  intro i s t h a ha
  rcases exec_next_cases h with ⟨-, rfl⟩ | ⟨-, code, -, rfl⟩ | ⟨-, rfl⟩
  · exact absurd rfl ha
  · exact absurd rfl ha
  · cases i with
    | buflen n => exact absurd rfl ha
    | start n =>
      have hword := State.word_opened s n a
      by_cases hlt : a < (bufferLength n).toNat
      · exact .inl ⟨n, rfl, by rwa [toNat_bufferLength] at hlt, hword.trans (if_pos hlt)⟩
      · exact absurd (hword.trans (if_neg hlt)) ha
    | push w =>
      have hword := State.word_pushed s w a
      by_cases heq : a = s.pushIndex
      · exact .inr (.inl ⟨w, rfl, heq, hword.trans (if_pos heq)⟩)
      · exact absurd (hword.trans (if_neg heq)) ha
    | finish =>
      by_cases heq : a = s.lastIndex
      · exact .inr (.inr ⟨rfl, heq⟩)
      · exact absurd ((State.word_finished s a).trans (if_neg heq)) ha

/-- The checks of a command do not read BLEN. -/
theorem exec_setBlen {i : Instr} (hi : ∀ n, i ≠ .buflen n) (s : State) (b : Word) :
    exec i (s.setBlen b) = mapNext (·.setBlen b) (exec i s) := by
  have hq : (s.setBlen b).inSequence i = s.inSequence i := by cases i <;> rfl
  have hc : (s.setBlen b).hasCapacity i = s.hasCapacity i := by cases i <;> rfl
  have ha : (s.setBlen b).addressExists i = s.addressExists i := by cases i <;> rfl
  have he : (s.setBlen b).effect i = (s.effect i).setBlen b := by
    cases i with
    | buflen n => exact absurd rfl (hi n)
    | start n => rfl
    | push w => rfl
    | finish => rfl
  rw [exec_eq, exec_eq, hq, hc, ha, he, State.setBlen_phase]
  split_ifs <;> rfl

/-- Settles O26: a command but BUFLEN commutes with a write to BLEN; BUFLEN overwrites it; a stop reads no BLEN. -/
theorem blenInfluencesNothing : Obligations.BlenInfluencesNothing := by
  refine ⟨fun i s t b hi h => ⟨?others, ?kept⟩, fun n b s t h => ⟨fun hf => ?executed, fun hf => ?discarded⟩,
    fun i s r b h => ?stops⟩
  case others =>
    have := exec_setBlen hi s b
    rwa [h] at this
  case kept =>
    obtain ⟨-, -, -, -, hblen, -⟩ := registersChangeOnlyByTheirWriters i s t h
    by_contra hne
    obtain ⟨n, hn⟩ := hblen hne
    exact hi n hn
  case executed =>
    have hf' : (s.setBlen b).phase ≠ .fault := hf
    rw [exec_buflen_of_ne hf] at h
    exact (exec_buflen_of_ne hf' n).trans h
  case discarded =>
    have hf' : (s.setBlen b).phase = .fault := hf
    obtain rfl := Host.Outcome.next.inj ((exec_of_fault hf _).symm.trans h)
    exact exec_of_fault hf' _
  case stops =>
    have hi : ∀ n, i ≠ .buflen n := by
      rintro n rfl
      obtain ⟨-, hmissing, -⟩ := exec_fault_cases h
      exact hmissing rfl
    have := exec_setBlen hi s b
    rwa [h] at this

/-- PHASE under a command (R20). -/
theorem exec_phase_cases {i : Instr} {s t : State} (h : exec i s = .next t) :
    t.phase = s.phase ∨ ((s.phase = .idle ∨ s.phase = .done) ∧ t.phase = .load ∧ ∃ n, i = .start n) ∨
      (s.phase = .load ∧ t.phase = .done ∧ i = .finish) ∨ (s.phase ≠ .fault ∧ t.phase = .fault ∧ t.ecode ≠ .none) := by
  rcases exec_next_cases h with ⟨-, rfl⟩ | ⟨hf, code, hcode, rfl⟩ | ⟨hx, rfl⟩
  · exact .inl rfl
  · exact .inr (.inr (.inr ⟨hf, rfl, hcode⟩))
  · cases i with
    | buflen n => exact .inl rfl
    | start n =>
      exact .inr (.inl ⟨(idle_or_done_iff hx.notFault).2 (State.startInSequence_iff.1 hx.inSequence), rfl, n, rfl⟩)
    | push w => exact .inl rfl
    | finish => exact .inr (.inr (.inl ⟨(State.finishInSequence_iff.1 hx.inSequence).1, rfl, rfl⟩))

/-- Settles O32: a reset edge, an edge without a command, or an accepted word, which is a command or ILLEGAL. -/
theorem phaseMovesOnlyAsListed : Obligations.PhaseMovesOnlyAsListed := by
  refine ⟨by decide, fun s t h => ?_⟩
  rcases step_cases s with ⟨-, hs⟩ | ⟨e, rest, hedges, ⟨hrst, hs⟩ | ⟨-, -, hs⟩ | ⟨hrst, hvalid, hs⟩⟩
  · obtain rfl := Host.Outcome.next.inj (hs.symm.trans h)
    exact .inl rfl
  · obtain rfl := Host.Outcome.next.inj (hs.symm.trans h)
    exact .inr (.inr (.inr (.inr ⟨rfl, e, rest, hedges, hrst⟩)))
  · obtain rfl := Host.Outcome.next.inj (hs.symm.trans h)
    exact .inl rfl
  · rcases acceptWord_cases e.cmd (s.setEdges rest) with ⟨i, hi, hc⟩ | ⟨_, -, hc⟩
    · have haccepts : s.Accepts i := ⟨e, rest, hedges, hrst, hvalid, hi⟩
      rcases exec_phase_cases (hc.symm.trans (hs.symm.trans h)) with hsame | ⟨hp, ht, n, rfl⟩ | ⟨hp, ht, rfl⟩ | hfault
      · exact .inl hsame
      · exact .inr (.inl ⟨hp, ht, n, haccepts⟩)
      · exact .inr (.inr (.inl ⟨hp, ht, haccepts⟩))
      · exact .inr (.inr (.inr (.inl hfault)))
    · rcases State.illegalWord_cases (hc.symm.trans (hs.symm.trans h)) with ⟨-, rfl⟩ | ⟨hf, rfl⟩
      · exact .inl rfl
      · exact .inr (.inr (.inr (.inl ⟨hf, rfl, nofun⟩)))

end Sys2Proof.Machine
end

section
/-! What every step keeps: one induction principle for words and steps, and the invariants of R26. -/

namespace Sys2Proof.Machine

theorem State.effect_cfg (s : State) (i : Instr) : (s.effect i).cfg = s.cfg := by cases i <;> rfl

theorem State.effect_ecode (s : State) (i : Instr) : (s.effect i).ecode = s.ecode := by cases i <;> rfl

/-- An executed command does not end in FAULT. -/
theorem State.Executes.effect_phase_ne {s : State} {i : Instr} (h : s.Executes i) : (s.effect i).phase ≠ .fault := by
  cases i with
  | buflen n => exact h.notFault
  | start n => exact nofun
  | push w => exact h.notFault
  | finish => exact nofun

/-- What a fault entry and every executed command keep, an accepted word keeps. -/
theorem acceptWord_keeps {P : State → Prop}
    (hraise : ∀ (s : State) (code : Ecode), code ≠ .none → P s → P (s.raise code))
    (heffect : ∀ (s : State) (i : Instr), P s → s.Executes i → P (s.effect i)) {c : CmdWord} {s t : State}
    (hs : P s) (h : acceptWord c s = .next t) : P t := by
  rcases acceptWord_cases c s with ⟨i, -, hc⟩ | ⟨e, -, hc⟩
  · rcases exec_next_cases (hc.symm.trans h) with ⟨-, rfl⟩ | ⟨-, code, hcode, rfl⟩ | ⟨hx, rfl⟩
    · exact hs
    · exact hraise s code hcode hs
    · exact heffect s i hs hx
  · rcases State.illegalWord_cases (hc.symm.trans h) with ⟨-, rfl⟩ | ⟨-, rfl⟩
    · exact hs
    · exact hraise s .enc nofun hs

/-- What also a reset edge and the consumption of an input keep, every step keeps. -/
theorem step_keeps {P : State → Prop} (hedges : ∀ (s : State) (es : List PortEdge), P s → P (s.setEdges es))
    (hreset : ∀ s : State, P s → P s.resetEdge)
    (hraise : ∀ (s : State) (code : Ecode), code ≠ .none → P s → P (s.raise code))
    (heffect : ∀ (s : State) (i : Instr), P s → s.Executes i → P (s.effect i)) {s t : State}
    (hs : P s) (h : step s = .next t) : P t := by
  rcases step_cases s with ⟨-, hc⟩ | ⟨e, rest, -, ⟨-, hc⟩ | ⟨-, -, hc⟩ | ⟨-, -, hc⟩⟩
  · obtain rfl := Host.Outcome.next.inj (hc.symm.trans h)
    exact hs
  · obtain rfl := Host.Outcome.next.inj (hc.symm.trans h)
    exact hreset _ (hedges s rest hs)
  · obtain rfl := Host.Outcome.next.inj (hc.symm.trans h)
    exact hedges s rest hs
  · exact acceptWord_keeps hraise heffect (hedges s rest hs) (hc.symm.trans h)

/-- Every effect keeps BUF in canonical form inside its address space: it writes at indices that exist. -/
theorem State.Executes.effect_bufInv {s : State} {i : Instr} (h : s.Executes i) (hs : s.BufInv) :
    (s.effect i).BufInv := by
  obtain ⟨hwf, hlt⟩ := hs
  cases i with
  | buflen n => exact ⟨hwf, hlt⟩
  | start n =>
    have hc : (bufferLength n).toNat ≤ s.cfg.bufWords := of_decide_eq_true h.hasCapacity
    exact ⟨Memory.zeroed_wf hwf _, Memory.zeroed_lt hlt hc⟩
  | push w =>
    exact ⟨Memory.write_wf hwf _ _, Memory.write_lt hlt (State.addressExists_push.1 h.addressExists) _⟩
  | finish =>
    exact ⟨Memory.write_wf hwf _ _, Memory.write_lt hlt (State.addressExists_finish.1 h.addressExists) _⟩

/-- Settles O42: effects write inside the address space, a reset edge empties the list, and the capacity is kept. -/
theorem stepKeepsBufferForm : Obligations.StepKeepsBufferForm := by
  intro s t hs h
  refine step_keeps (P := fun u => u.BufInv ∧ u.cfg = s.cfg) (fun _ _ hu => hu) (fun u hu => ?reset)
    (fun _ _ _ hu => hu) (fun u i hu hx => ?effect) ⟨hs, rfl⟩ h
  case reset => exact ⟨⟨List.Pairwise.nil, by simp⟩, hu.2⟩
  case effect => exact ⟨hx.effect_bufInv hu.1, (u.effect_cfg i).trans hu.2⟩

/-- The word count of a length that fits (R15). -/
theorem wordCountFits_of_lengthFits {s : State} (hwc : s.wc = bufferLength s.len) (h : s.lengthFits s.len = true) :
    s.WordCountFits := by
  have hc : (bufferLength s.len).toNat ≤ s.cfg.bufWords := of_decide_eq_true h
  refine ⟨hwc, ?_, hwc ▸ hc⟩
  rw [hwc, toNat_bufferLength]
  omega

theorem copyWords_le_bufferLength (n : Word) : copyWords n ≤ bufferLength n := by
  rw [BitVec.le_def, toNat_copyWords, toNat_bufferLength]
  omega

@[simp] theorem State.length_words (s : State) (k : Nat) : (s.words k).length = k := by
  simp [State.words]

theorem State.getElem_words (s : State) {k i : Nat} (h : i < (s.words k).length) : (s.words k)[i] = s.word i := by
  simp [State.words]

theorem State.getD_words (s : State) {k i : Nat} (h : i < k) : (s.words k).getD i 0 = s.word i := by
  simp [State.words, h]

/-- The words of an operation, once the last one is masked, are the masked buffer of the function layer (R65). -/
theorem State.words_masked {s : State} (hwc : s.wc = bufferLength s.len) :
    s.masked.words s.wc.toNat = maskLastWord s.len (s.words s.wc.toNat) := by
  have hlast : s.lastIndex = s.len.toNat / 32 := by rw [State.lastIndex, hwc, toNat_bufferLength_sub_one]
  refine List.ext_getElem (by simp) fun j hj hj' => ?_
  have hlt : j < s.wc.toNat := by simpa using hj
  rw [State.getElem_words, ← List.getD_eq_getElem _ 0 hj', getD_maskLastWord (by simp [hwc]), State.getD_words s hlt,
    State.masked_word, hlast]
  split_ifs with hj
  · rw [hj]
  · rfl

/-- The sum of FINISH over an operation that starts with ACC = 0 is FOLD of the masked buffer (R67). -/
theorem State.finished_acc {s : State} (hwc : s.wc = bufferLength s.len) (hacc : s.acc = 0) :
    s.finished.acc = foldWords (maskLastWord s.len (s.words s.wc.toNat)) := by
  rw [State.finished, State.closeOperation_acc, State.words_masked hwc, hacc, foldWords]

/-- A masked word has no bit outside the mask. -/
theorem maskedLast_and_not_tmask (n x : Word) : maskedLast n x &&& ~~~tmask (trailingCount n) = 0 := by
  rw [maskedLast, BitVec.and_assoc, BitVec.and_not_self]
  exact BitVec.and_zero

/-- The effect of START opens an operation as R26 item 2 says. -/
theorem State.opened_loadInv {s : State} {n : Word} (h : s.lengthFits n = true) : (s.opened n).LoadInv := fun _ =>
  ⟨wordCountFits_of_lengthFits rfl h, BitVec.le_def.2 (Nat.zero_le _), copyWords_le_bufferLength n, rfl,
    fun i hi _ => (s.word_opened n i).trans (if_pos hi)⟩

/-- The effect of PUSH keeps R26 item 2: IDX moves past the written word. -/
theorem State.pushed_loadInv {s : State} {w : Word} (hq : s.pushInSequence = true) (h : s.LoadInv) :
    (s.pushed w).LoadInv := by
  intro _
  obtain ⟨hp, hidx⟩ := State.pushInSequence_iff.1 hq
  obtain ⟨hfits, -, hcw, hacc, hzero⟩ := h hp
  have hnext : (s.pushed w).idx.toNat = s.idx.toNat + 1 := toNat_idx_add_one hidx
  refine ⟨hfits, ?_, hcw, hacc, fun i hi hle => ?_⟩
  · rw [BitVec.le_def, hnext]
    exact hidx.trans_eq (toNat_copyWords s.len).symm
  · rw [hnext] at hle
    have hne : i ≠ s.pushIndex := fun heq => by
      rw [heq, State.pushIndex] at hle
      omega
    rw [State.word_pushed, if_neg hne]
    exact hzero i hi (by omega)

/-- The effect of FINISH closes an operation as R26 item 3 says. -/
theorem State.finished_doneInv {s : State} (hq : s.finishInSequence = true) (h : s.LoadInv) : s.finished.DoneInv := by
  intro _
  obtain ⟨hp, -⟩ := State.finishInSequence_iff.1 hq
  obtain ⟨hfits, -, -, hacc, -⟩ := h hp
  have hwc : s.wc = bufferLength s.len := hfits.1
  have hlen : (s.words s.wc.toNat).length = (bufferLength s.len).toNat := by rw [State.length_words, hwc]
  have hsum : s.finished.acc.toNat = cardBits s.len.toNat (s.words s.wc.toNat) := by
    rw [State.finished_acc hwc hacc, toNat_foldWords_maskLastWord hlen]
  have hwords : s.finished.words s.finished.wc.toNat = maskLastWord s.len (s.words s.wc.toNat) :=
    State.words_masked hwc
  refine ⟨hfits, rfl, hsum.trans_le (cardBits_le _ _), ?_, ?_⟩
  · rw [hsum, hwords, sum_bitCount_maskLastWord hlen]
  · exact (congrArg (· &&& _) ((s.word_finished s.lastIndex).trans (if_pos rfl))).trans (maskedLast_and_not_tmask _ _)

theorem bufferLength_le_max (n : Word) : (bufferLength n).toNat ≤ Config.maxBufWords := by
  have hlt := n.isLt
  rw [toNat_bufferLength, Config.maxBufWords]
  omega

/-- Every effect keeps the invariants of R26. -/
theorem State.Executes.effect_inv {s : State} {i : Instr} (h : s.Executes i) (hs : s.Inv) : (s.effect i).Inv := by
  obtain ⟨hcfg, hbufs, hidle, hload, hdone, hfault, hblen⟩ := hs
  have hbuf : (s.effect i).BufInv := h.effect_bufInv hbufs
  have hfault' : (s.effect i).FaultInv := by
    have hnone : s.ecode = .none := not_not.1 (mt hfault.2 h.notFault)
    exact iff_of_false h.effect_phase_ne (not_not.2 ((s.effect_ecode i).trans hnone))
  cases i with
  | buflen n =>
    refine ⟨hcfg, hbuf, hidle, hload, hdone, hfault', .inr ⟨?_, bufferLength_le_max n⟩⟩
    exact (toNat_bufferLength n).symm ▸ Nat.le_add_left 1 _
  | start n => exact ⟨hcfg, hbuf, nofun, State.opened_loadInv h.hasCapacity, nofun, hfault', hblen⟩
  | push w =>
    have hp : (s.effect (.push w)).phase = .load := (State.pushInSequence_iff.1 h.inSequence).1
    refine ⟨hcfg, hbuf, fun hidle' => ?_, State.pushed_loadInv h.inSequence hload, fun hdone' => ?_, hfault', hblen⟩
    · exact nomatch hp.symm.trans hidle'
    · exact nomatch hp.symm.trans hdone'
  | finish => exact ⟨hcfg, hbuf, nofun, nofun, State.finished_doneInv h.inSequence hload, hfault', hblen⟩

/-- A fault entry keeps the invariants: it writes PHASE and ECODE together. -/
theorem State.raise_inv {s : State} {code : Ecode} (hcode : code ≠ .none) (hs : s.Inv) : (s.raise code).Inv := by
  obtain ⟨hcfg, hbuf, -, -, -, -, hblen⟩ := hs
  exact ⟨hcfg, hbuf, nofun, nofun, nofun, iff_of_true rfl hcode, hblen⟩

/-- The reset values meet the invariants at every valid capacity, whatever BUF then holds. -/
theorem reset_inv {c : Config} (hc : c.Valid) (d : Nat) (es : List PortEdge) :
    ({ State.reset with cfg := c, draws := d, edges := es } : State).Inv :=
  ⟨hc, ⟨List.Pairwise.nil, nofun⟩, fun _ => ⟨rfl, rfl, rfl, rfl⟩, nofun, nofun, iff_of_false nofun (not_not.2 rfl),
    .inl rfl⟩

/-- Settles O39: `reset_inv` at the capacity of `State.reset` and at any valid one. -/
theorem resetMeetsTheInvariant : Obligations.ResetMeetsTheInvariant :=
  ⟨reset_inv (c := Config.testVectors) (by decide) 0 [], fun _ d hc => reset_inv hc d []⟩

/-- Settles O40: reset, a fault entry and every effect keep the invariants. -/
theorem stepKeepsTheInvariant : Obligations.StepKeepsTheInvariant := fun _ _ hs h =>
  step_keeps (P := State.Inv) (fun _ _ hu => hu) (fun _ hu => reset_inv hu.1 _ _)
    (fun _ _ hcode hu => State.raise_inv hcode hu) (fun _ _ hu hx => hx.effect_inv hu) hs h

end Sys2Proof.Machine
end

section
/-! Steps that complete (R106), reset and idle edges, and the output ports. -/

namespace Sys2Proof.Machine

/-- Under R26 item 2 a command in sequence accesses words that exist (R35). -/
theorem State.LoadInv.addressExists {s : State} (h : s.LoadInv) {i : Instr} (hq : s.inSequence i = true) :
    s.addressExists i = true := by
  cases i with
  | buflen n => rfl
  | start n => rfl
  | push w =>
    obtain ⟨hp, hidx⟩ := State.pushInSequence_iff_copyWords.1 hq
    obtain ⟨⟨-, -, hfit⟩, -, hcw, -⟩ := h hp
    exact State.addressExists_push.2 (((BitVec.lt_def.1 hidx).trans_le (BitVec.le_def.1 hcw)).trans_le hfit)
  | finish =>
    obtain ⟨hp, -⟩ := State.finishInSequence_iff.1 hq
    obtain ⟨⟨-, hpos, hfit⟩, -⟩ := h hp
    rw [State.addressExists_finish, State.lastIndex_eq hpos]
    omega

/-- Under R26 item 2 every command completes. -/
theorem exec_completes {s : State} (h : s.LoadInv) (i : Instr) : ∃ t, exec i s = .next t := by
  cases hx : exec i s with
  | next t => exact ⟨t, rfl⟩
  | fault r =>
    obtain ⟨hq, ha, -⟩ := exec_fault_cases hx
    exact absurd (h.addressExists hq) ha
  | refused r => exact absurd hx (exec_ne_refused i s r)

theorem State.illegalWord_completes (s : State) : ∃ t, s.illegalWord = .next t := by
  by_cases hf : s.phase = .fault
  · exact ⟨s, State.unlessFault_of_fault hf _⟩
  · exact ⟨s.raise .enc, State.unlessFault_of_ne hf _⟩

/-- Under R26 item 2 every accepted word completes. -/
theorem acceptWord_completes {s : State} (h : s.LoadInv) (c : CmdWord) : ∃ t, acceptWord c s = .next t := by
  rcases acceptWord_cases c s with ⟨i, -, hc⟩ | ⟨e, -, hc⟩
  · rw [hc]
    exact exec_completes h i
  · rw [hc]
    exact s.illegalWord_completes

theorem acceptWord_ne_refused (c : CmdWord) (s : State) (r : Refusal) : acceptWord c s ≠ .refused r := by
  rcases acceptWord_cases c s with ⟨i, -, hc⟩ | ⟨e, -, hc⟩
  · rw [hc]
    exact exec_ne_refused i s r
  · obtain ⟨t, ht⟩ := s.illegalWord_completes
    rw [hc, ht]
    exact nofun

/-- Settles O41: of the four kinds of step only an accepted word could stop, and the invariant excludes it. -/
theorem everyStepCompletes : Obligations.EveryStepCompletes := by
  refine ⟨fun s hs => ?completes, fun s r => ?notRefused⟩
  case completes =>
    obtain ⟨-, -, -, hload, -⟩ := hs
    suffices h : ∃ t, step s = .next t from h.imp fun _ ht => ⟨ht, rfl⟩
    rcases step_cases s with ⟨-, hc⟩ | ⟨e, rest, -, ⟨-, hc⟩ | ⟨-, -, hc⟩ | ⟨-, -, hc⟩⟩
    · exact ⟨_, hc⟩
    · exact ⟨_, hc⟩
    · exact ⟨_, hc⟩
    · rw [hc]
      exact acceptWord_completes (s := s.setEdges rest) hload e.cmd
  case notRefused =>
    rcases step_cases s with ⟨-, hc⟩ | ⟨e, rest, -, ⟨-, hc⟩ | ⟨-, -, hc⟩ | ⟨-, -, hc⟩⟩
    · exact hc ▸ nofun
    · exact hc ▸ nofun
    · exact hc ▸ nofun
    · exact hc ▸ acceptWord_ne_refused e.cmd _ r

/-- Settles O36: the reset edge draws every word anew. -/
theorem resetEdgeRedrawsTheBuffer : Obligations.ResetEdgeRedrawsTheBuffer := fun s _ rest hedges hrst =>
  ⟨(s.setEdges rest).resetEdge, step_reset hedges hrst, rfl, fun i => State.resetEdge_word _ i⟩

/-- Settles O51: no edge is left, or the next one presents no command. -/
theorem idleEdgeExecutesNothing : Obligations.IdleEdgeExecutesNothing := by
  intro s h
  cases hedges : s.edges with
  | nil =>
    rw [step_nil hedges, List.tail_nil, ← hedges]
  | cons e rest =>
    obtain ⟨hrst, hvalid⟩ := h e (by rw [hedges]; rfl)
    exact step_idle hedges hrst hvalid

/-- A table word that decodes to a command fits the command port and decodes there (log 12). -/
theorem decode_of_decodeTableWord {nbits w : Nat} {i : Instr} (h : decodeTableWord nbits w = some i) :
    decode (cmdOfNat (w % 2 ^ nbits)) = .ok i := by
  simp only [decodeTableWord] at h
  split_ifs at h
  split at h
  · next j hj => rw [hj, Option.some.inj h]
  · exact nomatch h

/-- Settles O38: an edge with a command accepts its word, and a table word is presented by the next edge. -/
theorem stepRunsTheDecodedCommand : Obligations.StepRunsTheDecodedCommand :=
  ⟨fun _ _ _ _ hedges hrst hvalid hi => (step_command hedges hrst hvalid).trans (acceptWord_of_ok hi _),
    fun s _ _ _ h => (step_present s _).trans (acceptWord_of_ok (decode_of_decodeTableWord h) s)⟩

/-- The count is a result in phase DONE only (R104). -/
theorem State.countResult_of_ne {s : State} (h : s.phase ≠ .done) : s.countResult = none := if_neg h

theorem State.countResult_of_done {s : State} (h : s.phase = .done) : s.countResult = some s.acc := if_pos h

/-- STATUS is ECODE above PHASE (R22). -/
theorem State.toNat_status (s : State) : s.status.toNat = 4 * s.ecode.code.toNat + s.phase.code.toNat := by
  rw [State.status]
  cases s.ecode <;> cases s.phase <;> rfl

/-- Settles O33: the codes by cases, the ports by definition, the result by the phase. -/
theorem outputPortsAndStatus : Obligations.OutputPortsAndStatus := by
  refine ⟨by decide, by decide, fun s =>
    ⟨rfl, rfl, rfl, rfl, rfl, s.toNat_status, fun h => ?_, State.countResult_of_done⟩⟩
  by_contra hne
  exact nomatch (State.countResult_of_ne hne).symm.trans h

/-- Settles O34: R26 items 1 to 3 bound ACC in each phase. -/
theorem countPortByPhase : Obligations.CountPortByPhase := by
  rintro s ⟨-, -, hidle, hload, hdone, -, -⟩
  refine ⟨?before, fun hp => ?done⟩
  case before =>
    rintro (hp | hp)
    · obtain ⟨-, -, -, hacc⟩ := hidle hp
      exact ⟨hacc, State.countResult_of_ne (by simp [hp])⟩
    · obtain ⟨-, -, -, hacc, -⟩ := hload hp
      exact ⟨hacc, State.countResult_of_ne (by simp [hp])⟩
  case done =>
    obtain ⟨-, -, hle, -⟩ := hdone hp
    exact ⟨hle, State.countResult_of_done hp⟩

/-- Settles O37: the fields of `State.reset`. -/
theorem resetStateRegisters : Obligations.ResetStateRegisters := by
  unfold Obligations.ResetStateRegisters
  decide

end Sys2Proof.Machine
end

section
/-! An operation from START to FINISH (R75, R77): what the state holds while it is loaded, and the run of the canonical
sequence. -/

namespace Sys2Proof.Machine

/-- An operation of length `n` is open and the words `ws` are copied; the other words of its buffer are 0. -/
structure State.Loaded (s : State) (n : Word) (ws : List Word) : Prop where
  phase : s.phase = .load
  len : s.len = n
  wc : s.wc = bufferLength n
  idx : s.idx.toNat = ws.length
  acc : s.acc = 0
  fits : (bufferLength n).toNat ≤ s.cfg.bufWords
  words : ∀ i < (bufferLength n).toNat, s.word i = ws.getD i 0

/-- `t` differs from `s` at most in the registers of an operation and in the words of its buffer, for length `n`. -/
structure State.SameOutside (n : Word) (s t : State) : Prop where
  registers : t = { s with len := t.len, wc := t.wc, idx := t.idx, acc := t.acc, phase := t.phase, buf := t.buf }
  words : ∀ i, (bufferLength n).toNat ≤ i → t.word i = s.word i

theorem State.SameOutside.trans {n : Word} {s t u : State} (h₁ : s.SameOutside n t) (h₂ : t.SameOutside n u) :
    s.SameOutside n u := by
  refine ⟨?_, fun i hi => (h₂.words i hi).trans (h₁.words i hi)⟩
  rw [h₂.registers, h₁.registers]

theorem State.SameOutside.ecode {n : Word} {s t : State} (h : s.SameOutside n t) : t.ecode = s.ecode := by
  rw [h.registers]

/-- START opens an operation with no word copied yet. -/
theorem State.opened_loaded {s : State} {n : Word} (h : s.lengthFits n = true) : (s.opened n).Loaded n [] :=
  ⟨rfl, rfl, rfl, rfl, rfl, of_decide_eq_true h, fun i hi => (s.word_opened n i).trans (if_pos hi)⟩

theorem State.opened_sameOutside (s : State) (n : Word) : s.SameOutside n (s.opened n) :=
  ⟨rfl, fun i hi => (s.word_opened n i).trans (if_neg hi.not_gt)⟩

/-- A buffer with one word more. -/
theorem getD_concat (ws : List Word) (w : Word) (i : Nat) :
    (ws ++ [w]).getD i 0 = if i = ws.length then w else ws.getD i 0 := by
  obtain hlt | rfl | hgt := Nat.lt_trichotomy i ws.length
  · rw [if_neg hlt.ne, List.getD_append _ _ _ _ hlt]
  · simp
  · rw [if_neg hgt.ne', List.getD_eq_default _ _ (by simpa using hgt), List.getD_eq_default _ _ hgt.le]

section
variable {s : State} {n : Word} {us : List Word} (h : s.Loaded n us)
include h

theorem State.Loaded.pushInSequence_iff : s.pushInSequence = true ↔ us.length < (n.toNat + 31) / 32 := by
  rw [State.pushInSequence_iff, h.len, h.idx]
  exact and_iff_right h.phase

theorem State.Loaded.finishInSequence_iff : s.finishInSequence = true ↔ us.length = (n.toNat + 31) / 32 := by
  rw [State.finishInSequence_iff, h.len, h.idx]
  exact and_iff_right h.phase

theorem State.Loaded.setBlen (b : Word) : (s.setBlen b).Loaded n us :=
  ⟨h.phase, h.len, h.wc, h.idx, h.acc, h.fits, h.words⟩

theorem State.Loaded.lastIndex : s.lastIndex = n.toNat / 32 := by
  rw [State.lastIndex, h.wc, toNat_bufferLength_sub_one]

theorem State.Loaded.executes_finish (hlen : us.length = (n.toNat + 31) / 32) : s.Executes .finish := by
  refine ⟨by simp [h.phase], h.finishInSequence_iff.2 hlen, rfl, State.addressExists_finish.2 ?_⟩
  have hfits := h.fits
  rw [toNat_bufferLength] at hfits
  rw [h.lastIndex]
  omega

/-- The words of a complete copy are the copied buffer of the function layer (R76). -/
theorem State.Loaded.words_eq_copyIn (hlen : us.length = (n.toNat + 31) / 32) :
    s.words s.wc.toNat = copyIn n us (allocate n) := by
  refine List.ext_getElem (by simp [h.wc]) fun j hj hj' => ?_
  have hlt : j < (bufferLength n).toNat := by simpa using hj'
  rw [State.getElem_words, h.words j hlt, ← List.getD_eq_getElem _ 0 hj', getD_copyIn hlen]

/-- FINISH counts the copied words by the document's algorithm (R76). -/
theorem State.Loaded.finished_acc (hlen : us.length = (n.toNat + 31) / 32) : s.finished.acc = cardW n us := by
  have hwc : s.wc = bufferLength s.len := by rw [h.wc, h.len]
  rw [State.finished_acc hwc h.acc, h.words_eq_copyIn hlen, h.len, cardW]

theorem State.Loaded.finished_sameOutside : s.SameOutside n s.finished := by
  refine ⟨rfl, fun i hi => ?_⟩
  have hne : i ≠ s.lastIndex := by
    rw [h.lastIndex]
    rw [toNat_bufferLength] at hi
    omega
  exact (s.word_finished i).trans (if_neg hne)

variable {w : Word} (hw : us.length < (n.toNat + 31) / 32)
include hw

theorem State.Loaded.pushIndex_lt : s.pushIndex < (bufferLength n).toNat := by
  rw [State.pushIndex, h.idx, toNat_bufferLength]
  omega

theorem State.Loaded.executes_push : s.Executes (.push w) :=
  ⟨by simp [h.phase], h.pushInSequence_iff.2 hw, rfl, State.addressExists_push.2 ((h.pushIndex_lt hw).trans_le h.fits)⟩

/-- PUSH copies the next word. -/
theorem State.Loaded.pushed : (s.pushed w).Loaded n (us ++ [w]) := by
  have hidx : (s.pushed w).idx.toNat = s.idx.toNat + 1 :=
    toNat_idx_add_one (State.pushInSequence_iff.1 (h.pushInSequence_iff.2 hw)).2
  refine ⟨h.phase, h.len, h.wc, by rw [hidx, h.idx, List.length_append, List.length_singleton], h.acc, h.fits,
    fun i hi => ?_⟩
  rw [State.word_pushed, State.pushIndex, h.idx, getD_concat, h.words i hi]

theorem State.Loaded.pushed_sameOutside : s.SameOutside n (s.pushed w) :=
  ⟨rfl, fun i hi => (s.word_pushed w i).trans (if_neg ((h.pushIndex_lt hw).trans_le hi).ne')⟩

end

/-- A run over a command that is executed goes on from its effect. -/
theorem acceptAll_encode_cons {s : State} {i : Instr} (h : s.Executes i) (cs : List CmdWord) :
    acceptAll (encode i :: cs) s = acceptAll cs (s.effect i) := by
  rw [acceptAll, acceptWord_of_ok (decode_encode i), h.exec_eq]

/-- The PUSHes of a canonical sequence copy their words, one after the other. -/
theorem State.Loaded.acceptAll_pushes {n : Word} (cs : List CmdWord) (ws : List Word) {s : State} {us : List Word}
    (h : s.Loaded n us) (hlen : us.length + ws.length ≤ (n.toNat + 31) / 32) :
    ∃ t, acceptAll ((ws.map Instr.push).map encode ++ cs) s = acceptAll cs t ∧ t.Loaded n (us ++ ws) ∧
      s.SameOutside n t := by
  induction ws generalizing s us with
  | nil => exact ⟨s, rfl, by rwa [List.append_nil], rfl, fun _ _ => rfl⟩
  | cons w ws ih =>
    rw [List.length_cons] at hlen
    have hw : us.length < (n.toNat + 31) / 32 := by omega
    obtain ⟨t, hrun, ht, hsame⟩ := ih (h.pushed hw (w := w)) (by rw [List.length_append, List.length_singleton]; omega)
    refine ⟨t, (acceptAll_encode_cons (h.executes_push hw) _).trans hrun, ?_, (h.pushed_sameOutside hw).trans hsame⟩
    rwa [List.append_assoc] at ht

/-- START executes in a ready state. -/
theorem State.Ready.executes_start {s : State} {n : Word} (h : s.Ready n) : s.Executes (.start n) := by
  obtain ⟨hp, hfit⟩ := h
  obtain ⟨hf, hl⟩ := ne_fault_and_ne_load hp
  exact ⟨hf, State.startInSequence_iff.2 hl, State.lengthFits_iff.2 hfit, rfl⟩

/-- The run of a canonical sequence: START, the copy, and FINISH on the loaded operation. -/
theorem runWords_canonical {s : State} {n : Word} {ws : List Word} (hr : s.Ready n)
    (hws : ws.length = (n.toNat + 31) / 32) :
    ∃ u, s.runWords ((canonical n ws).map encode) = .next u.finished ∧ u.Loaded n ws ∧ s.SameOutside n u := by
  have hopen : (s.opened n).Loaded n [] := State.opened_loaded hr.executes_start.hasCapacity
  obtain ⟨u, hrun, hu, hsame⟩ := hopen.acceptAll_pushes [encode .finish] ws (by simp [hws])
  refine ⟨u, ?_, hu, (s.opened_sameOutside n).trans hsame⟩
  calc s.runWords ((canonical n ws).map encode)
      = acceptAll (encode (.start n) :: ((ws.map Instr.push).map encode ++ [encode .finish])) s := by
        rw [runWords_eq_acceptAll, canonical, List.map_cons, List.map_append, List.map_singleton]
    _ = acceptAll ((ws.map Instr.push).map encode ++ [encode .finish]) (s.opened n) :=
        acceptAll_encode_cons hr.executes_start _
    _ = acceptAll [encode .finish] u := hrun
    _ = .next u.finished := acceptAll_encode_cons (hu.executes_finish hws) []

/-- The words below the last one, after FINISH, are the copied ones. -/
theorem State.Loaded.word_finished_of_lt {s : State} {n : Word} {ws : List Word} (h : s.Loaded n ws) {j : Nat}
    (hj : j < n.toNat / 32) : s.finished.word j = ws.getD j 0 := by
  rw [State.word_finished, h.lastIndex, if_neg hj.ne]
  exact h.words j (by rw [toNat_bufferLength]; omega)

/-- The last word, after FINISH, is the copied one with the mask of R65. -/
theorem State.Loaded.word_finished_last {s : State} {n : Word} {ws : List Word} (h : s.Loaded n ws) :
    s.finished.word (n.toNat / 32) = maskedLast n (ws.getD (n.toNat / 32) 0) := by
  rw [State.word_finished, h.lastIndex, if_pos rfl, h.len, h.words _ (by rw [toNat_bufferLength]; omega)]

/-- Settles O43: the run ends with FINISH on the loaded operation, and each clause is read off that state. -/
theorem canonicalSequenceComputesCardW : Obligations.CanonicalSequenceComputesCardW := by
  intro s n ws hr hfault hws
  obtain ⟨u, hrun, hu, hsame⟩ := runWords_canonical hr hws
  have hsame' : s.SameOutside n u.finished := hsame.trans hu.finished_sameOutside
  have hwc : u.finished.wc.toNat = n.toNat / 32 + 1 := by
    rw [← toNat_bufferLength, ← hu.wc]
    rfl
  have hacc : u.finished.acc = cardW n ws := hu.finished_acc hws
  have hregisters := hsame'.registers
  have hlast : u.finished.word (n.toNat / 32) = maskedLast n (ws.getD (n.toNat / 32) 0) := hu.word_finished_last
  refine ⟨u.finished, hrun, ?registers, ?ecode, hwc, hacc, fun j hj => ?copied, fun hmod => ?masked,
    fun hmod => ?extra, fun j hj => hsame'.words j ?above⟩
  case registers =>
    have hlen : u.finished.len = n := hu.len
    have hidx : u.finished.idx = u.finished.wc := rfl
    have hphase : u.finished.phase = .done := rfl
    rwa [hlen, hidx, hphase, hacc] at hregisters
  case ecode =>
    exact hsame'.ecode.trans (not_not.1 (mt hfault.2 (ne_fault_and_ne_load hr.1).1))
  case copied =>
    rw [hwc] at hj
    have hlt : j < ws.length := by omega
    rw [hu.word_finished_of_lt (by omega), List.getD_eq_getElem _ _ hlt, List.getElem?_eq_getElem hlt]
  case masked =>
    have htrail : trailingCount n = BitVec.ofNat 32 (n.toNat % 32) := by
      rw [← toNat_trailingCount, BitVec.ofNat_toNat, BitVec.setWidth_eq]
    rw [hwc, Nat.add_sub_cancel, hlast, maskedLast, htrail]
  case extra =>
    have hzero : ws.getD (n.toNat / 32) 0 = 0 := List.getD_eq_default _ _ (by omega)
    rw [hwc, Nat.add_sub_cancel, hlast, hzero, maskedLast]
    exact BitVec.zero_and
  case above => rwa [hwc, ← toNat_bufferLength] at hj

end Sys2Proof.Machine
end

section
/-! BUFLEN between the words of an operation (R46, R75). -/

namespace Sys2Proof.Machine

theorem notBuflen_ok_iff {i : Instr} : notBuflen (.ok i) = true ↔ ∀ n, i ≠ .buflen n := by
  cases i <;> simp [notBuflen]

theorem eq_buflen_of_not_notBuflen {d : Except DecodeError Instr} (h : ¬ notBuflen d = true) :
    ∃ n, d = .ok (.buflen n) := by
  cases d with
  | error e => exact absurd rfl h
  | ok i =>
    cases i with
    | buflen n => exact ⟨n, rfl⟩
    | start n => exact absurd rfl h
    | push w => exact absurd rfl h
    | finish => exact absurd rfl h

/-- An accepted BUFLEN changes BLEN at most. -/
theorem exec_buflen_setBlen (n : Word) (s : State) : ∃ b, exec (.buflen n) s = .next (s.setBlen b) := by
  by_cases hf : s.phase = .fault
  · exact ⟨s.blen, exec_buflen_of_fault hf n⟩
  · exact ⟨bufferLength n, exec_buflen_of_ne hf n⟩

/-- A run that ends in a next state has taken its first word to one. -/
theorem acceptAll_cons_next {c : CmdWord} {cs : List CmdWord} {s t : State} (h : acceptAll (c :: cs) s = .next t) :
    ∃ u, acceptWord c s = .next u ∧ acceptAll cs u = .next t := by
  rw [acceptAll] at h
  cases hc : acceptWord c s with
  | next u => exact ⟨u, rfl, by rwa [hc] at h⟩
  | fault r => exact nomatch hc ▸ h
  | refused r => exact nomatch hc ▸ h

/-- Words that are the commands `is` once their BUFLENs are left out run as the commands do, BLEN aside. -/
theorem acceptAll_of_filter_notBuflen {cs : List CmdWord} {is : List Instr} {s u : State} (b : Word)
    (hcs : (cs.map decode).filter notBuflen = is.map .ok) (hrun : acceptAll (is.map encode) s = .next u) :
    ∃ b', acceptAll cs (s.setBlen b) = .next (u.setBlen b') := by
  induction cs generalizing is s b with
  | nil =>
    obtain rfl : is = [] := List.map_eq_nil_iff.1 hcs.symm
    obtain rfl := Host.Outcome.next.inj hrun
    exact ⟨b, rfl⟩
  | cons c cs ih =>
    rw [List.map_cons, List.filter_cons] at hcs
    split_ifs at hcs with hkeep
    · cases is with
      | nil => exact nomatch hcs
      | cons i is =>
        obtain ⟨hi, hcs⟩ := List.cons.inj hcs
        rw [hi] at hkeep
        obtain ⟨v, hv, hrest⟩ := acceptAll_cons_next hrun
        rw [acceptWord_of_ok (decode_encode i)] at hv
        have hstep : acceptWord c (s.setBlen b) = .next (v.setBlen b) := by
          rw [acceptWord_of_ok hi, exec_setBlen (notBuflen_ok_iff.1 hkeep), hv]
          rfl
        obtain ⟨b', hb'⟩ := ih b hcs hrest
        exact ⟨b', by rw [acceptAll, hstep]; exact hb'⟩
    · obtain ⟨n, hn⟩ := eq_buflen_of_not_notBuflen hkeep
      obtain ⟨b₁, hb₁⟩ := exec_buflen_setBlen n (s.setBlen b)
      obtain ⟨b', hb'⟩ := ih b₁ hcs hrun
      exact ⟨b', by rw [acceptAll, acceptWord_of_ok hn, hb₁]; exact hb'⟩

/-- Settles O44: the canonical run ends in FINISH's effect, and the BUFLENs change BLEN only. -/
theorem interleavedBuflenChangesNoResult : Obligations.InterleavedBuflenChangesNoResult := by
  intro s n ws cs hr _ hws hcs
  obtain ⟨u, hrun, -, -⟩ := runWords_canonical hr hws
  obtain ⟨b, hb⟩ := acceptAll_of_filter_notBuflen s.blen hcs ((runWords_eq_acceptAll s _).symm.trans hrun)
  exact ⟨u.finished.setBlen b, u.finished, (runWords_eq_acceptAll s cs).trans hb, hrun, rfl, rfl⟩

end Sys2Proof.Machine
end

section
/-! The way to DONE (R75): the words without BUFLENs that brought the engine where it is. -/

namespace Sys2Proof.Machine

/-- The decoded words `h`, BUFLENs left out, end as the phase says: in LOAD with the START of the open operation and its
PUSHes, in DONE with the canonical sequence of the finished one. -/
structure State.ReachedBy (s : State) (h : List (Except DecodeError Instr)) : Prop where
  load : s.phase = .load → ∃ before n ws, h = before ++ (Instr.start n :: ws.map .push).map .ok ∧ s.Loaded n ws
  done : s.phase = .done → ∃ before n ws, h = before ++ (canonical n ws).map .ok ∧
    ws.length = (n.toNat + 31) / 32 ∧ n.toNat / 32 + 1 ≤ s.cfg.bufWords ∧ s.len = n ∧ s.acc = cardW n ws

theorem State.reachedBy_of_ne {s : State} (hl : s.phase ≠ .load) (hd : s.phase ≠ .done)
    (h : List (Except DecodeError Instr)) : s.ReachedBy h :=
  ⟨fun hp => absurd hp hl, fun hp => absurd hp hd⟩

theorem State.reachedBy_of_fault {s : State} (hf : s.phase = .fault) (h : List (Except DecodeError Instr)) :
    s.ReachedBy h :=
  State.reachedBy_of_ne (by simp [hf]) (by simp [hf]) h

/-- An executed command carries the history on. -/
theorem State.ReachedBy.effect {s : State} {h : List (Except DecodeError Instr)} (hs : s.ReachedBy h) {i : Instr}
    (hx : s.Executes i) : (s.effect i).ReachedBy (h ++ [.ok i].filter notBuflen) := by
  cases i with
  | buflen n =>
    rw [List.filter_singleton, notBuflen, cond_false, List.append_nil]
    refine ⟨fun hp => ?_, hs.done⟩
    obtain ⟨before, n', ws, hh, hl⟩ := hs.load hp
    exact ⟨before, n', ws, hh, hl.setBlen _⟩
  | start n => exact ⟨fun _ => ⟨h, n, [], rfl, State.opened_loaded hx.hasCapacity⟩, nofun⟩
  | push w =>
    have hp : s.phase = .load := (State.pushInSequence_iff.1 hx.inSequence).1
    obtain ⟨before, n, ws, rfl, hl⟩ := hs.load hp
    have hw := hl.pushInSequence_iff.1 hx.inSequence
    refine ⟨fun _ => ⟨before, n, ws ++ [w], ?_, hl.pushed hw⟩, fun hd => nomatch hp.symm.trans hd⟩
    simp [notBuflen]
  | finish =>
    obtain ⟨before, n, ws, rfl, hl⟩ := hs.load (State.finishInSequence_iff.1 hx.inSequence).1
    have hlen := hl.finishInSequence_iff.1 hx.inSequence
    refine ⟨nofun, fun _ => ⟨before, n, ws, ?_, hlen, toNat_bufferLength n ▸ hl.fits, hl.len, hl.finished_acc hlen⟩⟩
    simp [notBuflen, canonical]

/-- An accepted word carries the history on. -/
theorem State.ReachedBy.acceptWord {s t : State} {h : List (Except DecodeError Instr)} (hs : s.ReachedBy h)
    {c : CmdWord} (hc : acceptWord c s = .next t) : t.ReachedBy (h ++ [decode c].filter notBuflen) := by
  rcases acceptWord_cases c s with ⟨i, hi, hci⟩ | ⟨e, -, hce⟩
  · rcases exec_next_cases (hci.symm.trans hc) with ⟨hf, rfl⟩ | ⟨-, code, -, rfl⟩ | ⟨hx, rfl⟩
    · exact State.reachedBy_of_fault hf _
    · exact State.reachedBy_of_fault rfl _
    · rw [hi]
      exact hs.effect hx
  · rcases State.illegalWord_cases (hce.symm.trans hc) with ⟨hf, rfl⟩ | ⟨-, rfl⟩
    · exact State.reachedBy_of_fault hf _
    · exact State.reachedBy_of_fault rfl _

/-- A run carries the history on. -/
theorem State.ReachedBy.acceptAll {cs : List CmdWord} {s t : State} {h : List (Except DecodeError Instr)}
    (hs : s.ReachedBy h) (hrun : acceptAll cs s = .next t) : t.ReachedBy (h ++ (cs.map decode).filter notBuflen) := by
  induction cs generalizing s h with
  | nil =>
    obtain rfl := Host.Outcome.next.inj hrun
    rwa [List.map_nil, List.filter_nil, List.append_nil]
  | cons c cs ih =>
    obtain ⟨u, hu, hrest⟩ := acceptAll_cons_next hrun
    have := ih (hs.acceptWord hu) hrest
    rwa [List.append_assoc, ← List.filter_append] at this

theorem acceptAll_cfg {cs : List CmdWord} {s t : State} (hrun : acceptAll cs s = .next t) : t.cfg = s.cfg := by
  induction cs generalizing s with
  | nil => rw [Host.Outcome.next.inj hrun]
  | cons c cs ih =>
    obtain ⟨u, hu, hrest⟩ := acceptAll_cons_next hrun
    have hcfg : u.cfg = s.cfg := acceptWord_keeps (P := fun v => v.cfg = s.cfg) (fun _ _ _ hv => hv)
      (fun v i hv _ => (v.effect_cfg i).trans hv) rfl hu
    exact (ih hrest).trans hcfg

/-- Settles O45: in IDLE any history will do, the run carries it on, and in DONE it ends as claimed. -/
theorem doneIsReachedOnlyCanonically : Obligations.DoneIsReachedOnlyCanonically := by
  intro s t cs _ hidle hrun hdone
  rw [runWords_eq_acceptAll] at hrun
  have hs : s.ReachedBy [] := State.reachedBy_of_ne (by simp [hidle]) (by simp [hidle]) []
  have ht := hs.acceptAll hrun
  rw [← acceptAll_cfg hrun]
  exact ht.done hdone

end Sys2Proof.Machine
end

section
/-! The guarantees on `count_o` (43_cardinality.md section 5), and `card.bits` from its line to its count. -/

namespace Sys2Proof.Machine

/-- The canonical run from a ready state ends in DONE with the number of vector bits on `count_o`. -/
theorem runWords_canonical_count {s : State} {n : Word} {ws : List Word} (hr : s.Ready n)
    (hws : ws.length = (n.toNat + 31) / 32) :
    ∃ t, s.runWords ((canonical n ws).map encode) = .next t ∧ t.phase = .done ∧
      t.ports.countO.toNat = cardBits n.toNat ws := by
  obtain ⟨u, hrun, hu, -⟩ := runWords_canonical hr hws
  exact ⟨u.finished, hrun, rfl, (congrArg BitVec.toNat (hu.finished_acc hws)).trans (toNat_cardW hws)⟩

theorem cardBits_of_all_false {n : Nat} {ws : List Word} (h : ∀ i < n, vectorBit ws i = false) : cardBits n ws = 0 := by
  rw [cardBits_eq_sum]
  exact Finset.sum_eq_zero fun i hi => by rw [h i (Finset.mem_range.1 hi), Bool.toNat_false]

theorem cardBits_of_all_true {n : Nat} {ws : List Word} (h : ∀ i < n, vectorBit ws i = true) : cardBits n ws = n := by
  rw [cardBits_eq_sum, Finset.sum_congr rfl fun i hi => by rw [h i (Finset.mem_range.1 hi), Bool.toNat_true]]
  simp

/-- Settles O46: each guarantee is a fact about the number of vector bits. -/
theorem guaranteesOfTheCount : Obligations.GuaranteesOfTheCount := by
  intro s n ws hr _ hws
  obtain ⟨t, hrun, hdone, hcount⟩ := runWords_canonical_count hr hws
  refine ⟨t, hrun, hdone, hcount.trans_le (cardBits_le _ _), fun hfalse => ?allFalse, fun htrue => ?allTrue,
    fun vs hvs hagree => ?agree⟩
  case allFalse =>
    apply BitVec.eq_of_toNat_eq
    rw [hcount, cardBits_of_all_false hfalse]
    rfl
  case allTrue =>
    apply BitVec.eq_of_toNat_eq
    rw [hcount, cardBits_of_all_true htrue]
  case agree =>
    obtain ⟨u, hrun', -, hcount'⟩ := runWords_canonical_count hr (hvs.trans hws)
    refine ⟨u, hrun', BitVec.eq_of_toNat_eq ?_⟩
    rw [hcount', hcount, cardBits_congr hagree]

/-- Cardinality as a sum over positions (R76). -/
theorem cardinality_eq_sum (v : List Bool) :
    cardinality v = ∑ i ∈ Finset.range v.length, (v.getD i false).toNat := by
  rw [cardinality]
  induction v with
  | nil => rfl
  | cons b v ih =>
    rw [List.length_cons, Finset.sum_range_succ']
    simp only [List.getD_cons_succ, List.getD_cons_zero, ← ih]
    cases b <;> simp

/-- Words that agree with a vector on its positions have its Cardinality as their number of vector bits. -/
theorem cardBits_eq_cardinality {v : List Bool} {ws : List Word} (h : ∀ i < v.length, vectorBit ws i = v.getD i false) :
    cardBits v.length ws = cardinality v := by
  rw [cardBits_eq_sum, cardinality_eq_sum]
  exact Finset.sum_congr rfl fun i hi => by rw [h i (Finset.mem_range.1 hi)]

/-- Settles O47: the packed words agree with the vector, and so do the given ones. -/
theorem cardBitsCountsTheVector : Obligations.CardBitsCountsTheVector := by
  intro s v hv hr _
  have hn : (BitVec.ofNat 32 v.length).toNat = v.length := by
    rw [BitVec.toNat_ofNat, Nat.mod_eq_of_lt hv]
  have hcount : ∀ ws : List Word, ws.length = (v.length + 31) / 32 → (∀ i < v.length, vectorBit ws i = v.getD i false) →
      ∃ t, s.runWords ((canonical (BitVec.ofNat 32 v.length) ws).map encode) = .next t ∧ t.phase = .done ∧
        t.ports.countO.toNat = cardinality v := fun ws hws hbits => by
    obtain ⟨t, hrun, hdone, hcount⟩ := runWords_canonical_count hr (ws := ws) (by rwa [hn])
    exact ⟨t, hrun, hdone, by rw [hcount, hn, cardBits_eq_cardinality hbits]⟩
  obtain ⟨t, ht⟩ := hcount (pack v) (length_pack v) fun i _ => vectorBit_pack v i
  exact ⟨⟨_, t, assembleLine_of_wellFormed (l := .cardBits v) (fitsWord_iff.2 hv), ht⟩, hcount⟩

end Sys2Proof.Machine
end

section
/-! Stale words of BUF (R24, R79, R97): no command reads them. -/

namespace Sys2Proof.Machine

/-- The same state with another BUF and another draw of its reset content. -/
def State.withBuf (s : State) (m : Memory) (d : Nat) : State := { s with buf := m, draws := d }

theorem State.words_congr {s t : State} {k : Nat} (h : ∀ i < k, t.word i = s.word i) : t.words k = s.words k :=
  List.map_congr_left fun i hi => h i (List.mem_range.1 hi)

/-- FINISH masks and counts words of the operation only. -/
theorem State.finished_acc_withBuf {s : State} {m : Memory} {d : Nat} (hpos : 1 ≤ s.wc.toNat)
    (hwords : ∀ i < s.wc.toNat, (s.withBuf m d).word i = s.word i) :
    (s.withBuf m d).finished.acc = s.finished.acc := by
  have hlast : (s.withBuf m d).word s.lastIndex = s.word s.lastIndex := by
    refine hwords _ ?_
    rw [State.lastIndex_eq hpos]
    omega
  have hmasked : ∀ i < s.wc.toNat, (s.withBuf m d).masked.word i = s.masked.word i := fun i hi => by
    refine ((s.withBuf m d).masked_word i).trans (Eq.trans ?_ (s.masked_word i).symm)
    exact ite_congr rfl (fun _ => congrArg (maskedLast s.len) hlast) fun _ => hwords i hi
  exact congrArg (List.foldl accStep s.acc) (State.words_congr hmasked)

/-- The effect of a command on states that differ in stale words differs in stale words. -/
theorem State.Executes.effect_sameButStaleBuf {s s' : State} {i : Instr} (h : s.Executes i) (hload : s.LoadInv)
    (hsame : s.SameButStaleBuf s') : (s.effect i).SameButStaleBuf (s'.effect i) := by
  obtain ⟨heq, hwords⟩ := hsame
  obtain ⟨m, d, rfl⟩ : ∃ m d, s' = s.withBuf m d := ⟨_, _, heq⟩
  cases i with
  | buflen n => exact ⟨rfl, hwords⟩
  | start n =>
    refine ⟨rfl, fun _ i hi => ?_⟩
    exact ((s.withBuf m d).word_opened n i).trans ((if_pos hi).trans ((s.word_opened n i).trans (if_pos hi)).symm)
  | push w =>
    refine ⟨rfl, fun hp i hi => ?_⟩
    refine ((s.withBuf m d).word_pushed w i).trans (Eq.trans ?_ (s.word_pushed w i).symm)
    exact ite_congr rfl (fun _ => rfl) fun _ => hwords hp i hi
  | finish =>
    have hp : s.phase = .load := (State.finishInSequence_iff.1 h.inSequence).1
    obtain ⟨⟨-, hpos, -⟩, -⟩ := hload hp
    refine ⟨?_, nofun⟩
    change (s.withBuf m d).masked.closeOperation (s.withBuf m d).finished.acc = _
    rw [State.finished_acc_withBuf hpos (hwords hp)]
    rfl

theorem State.SameButStaleBuf.phase {s s' : State} (h : s.SameButStaleBuf s') : s'.phase = s.phase := by
  rw [h.1]

theorem State.SameButStaleBuf.edges {s s' : State} (h : s.SameButStaleBuf s') : s'.edges = s.edges := by
  rw [h.1]

/-- No port shows a word of BUF. -/
theorem State.SameButStaleBuf.ports {s s' : State} (h : s.SameButStaleBuf s') : s'.ports = s.ports := by
  rw [h.1]
  rfl

theorem State.SameButStaleBuf.setEdges {s s' : State} (h : s.SameButStaleBuf s') (es : List PortEdge) :
    (s.setEdges es).SameButStaleBuf (s'.setEdges es) :=
  ⟨congrArg (State.setEdges · es) h.1, h.2⟩

theorem State.SameButStaleBuf.raise {s s' : State} (h : s.SameButStaleBuf s') (code : Ecode) :
    (s.raise code).SameButStaleBuf (s'.raise code) :=
  ⟨congrArg (State.raise · code) h.1, nofun⟩

theorem State.SameButStaleBuf.resetEdge {s s' : State} (h : s.SameButStaleBuf s') :
    s.resetEdge.SameButStaleBuf s'.resetEdge := by
  rw [h.1]
  exact ⟨rfl, nofun⟩

/-- The checks of a command do not read BUF, and its effect keeps states alike that differ in stale words. -/
theorem State.SameButStaleBuf.exec {s s' t : State} (h : s.SameButStaleBuf s') (hload : s.LoadInv) {i : Instr}
    (ht : exec i s = .next t) : ∃ t', exec i s' = .next t' ∧ t.SameButStaleBuf t' := by
  have hq : s'.inSequence i = s.inSequence i := by
    rw [h.1]
    cases i <;> rfl
  have hc : s'.hasCapacity i = s.hasCapacity i := by
    rw [h.1]
    cases i <;> rfl
  have ha : s'.addressExists i = s.addressExists i := by
    rw [h.1]
    cases i <;> rfl
  rw [exec_eq] at ht
  rw [exec_eq, hq, hc, ha, h.phase]
  split_ifs at ht ⊢ with hf hq hc ha
  · obtain rfl := Host.Outcome.next.inj ht
    exact ⟨s', rfl, h⟩
  · obtain rfl := Host.Outcome.next.inj ht
    have hx : s.Executes i := ⟨hf, hq, hc, ha⟩
    exact ⟨_, rfl, hx.effect_sameButStaleBuf hload h⟩
  · obtain rfl := Host.Outcome.next.inj ht
    exact ⟨_, rfl, h.raise .cap⟩
  · obtain rfl := Host.Outcome.next.inj ht
    exact ⟨_, rfl, h.raise .seq⟩

theorem State.SameButStaleBuf.illegalWord {s s' t : State} (h : s.SameButStaleBuf s') (ht : s.illegalWord = .next t) :
    ∃ t', s'.illegalWord = .next t' ∧ t.SameButStaleBuf t' := by
  rcases State.illegalWord_cases ht with ⟨hf, rfl⟩ | ⟨hf, rfl⟩
  · exact ⟨s', State.unlessFault_of_fault (h.phase.trans hf) _, h⟩
  · exact ⟨s'.raise .enc, State.unlessFault_of_ne (h.phase ▸ hf) _, h.raise .enc⟩

theorem State.SameButStaleBuf.acceptWord {s s' t : State} (h : s.SameButStaleBuf s') (hload : s.LoadInv) {c : CmdWord}
    (ht : acceptWord c s = .next t) : ∃ t', acceptWord c s' = .next t' ∧ t.SameButStaleBuf t' := by
  cases hd : decode c with
  | ok i =>
    rw [acceptWord_of_ok hd] at ht ⊢
    exact h.exec hload ht
  | error e =>
    rw [acceptWord_of_error hd] at ht ⊢
    exact h.illegalWord ht

/-- Settles O48: each of the four kinds of step keeps the two states alike, and alike states have the same ports. -/
theorem staleBufferIsNeverObserved : Obligations.StaleBufferIsNeverObserved := by
  rintro s s' t ⟨-, -, -, hload, -⟩ h ht
  suffices hstep : ∃ t', step s' = .next t' ∧ t.SameButStaleBuf t' from
    hstep.imp fun _ ⟨ht', hsame⟩ => ⟨ht', hsame, hsame.ports⟩
  rcases step_cases s with ⟨hnil, hs⟩ | ⟨e, rest, hedges, ⟨hrst, hs⟩ | ⟨hrst, hvalid, hs⟩ | ⟨hrst, hvalid, hs⟩⟩
  · obtain rfl := Host.Outcome.next.inj (hs.symm.trans ht)
    exact ⟨s', step_nil (h.edges.trans hnil), h⟩
  · obtain rfl := Host.Outcome.next.inj (hs.symm.trans ht)
    exact ⟨_, step_reset (h.edges.trans hedges) hrst, (h.setEdges rest).resetEdge⟩
  · obtain rfl := Host.Outcome.next.inj (hs.symm.trans ht)
    exact ⟨_, step_idle (h.edges.trans hedges) hrst hvalid, h.setEdges rest⟩
  · rw [step_command (h.edges.trans hedges) hrst hvalid]
    exact (h.setEdges rest).acceptWord hload (hs.symm.trans ht)

end Sys2Proof.Machine
end
